-- ==== Sys2Proof/Word.lean ====
section
/-! DEFINITION. The bit vectors the ports carry (spec/10_state.md R23, R24; spec/00_scope.md R8, R9). -/

namespace Sys2Proof

/-- A 32-bit word: the OPA and RES ports (R8 `WORD_BITS`, R23, R24). Bit 0 is the least significant bit (R9). -/
abbrev Word := BitVec 32

/-- A 32-lane sequence port: OPS, SEQ and the transport's lanes (R8 `LANES`).
Lane k is bit k of the port and holds sequence element k (R9). -/
abbrev Lanes := BitVec 32

/-- A sequence length or a transfer width on a port: OPL, SLEN, `width_bits` (R8 `SLEN_BITS`, R23, R24, R30). -/
abbrev Len := BitVec 6

/-- The command word CMD[15:0] (R60). -/
abbrev CmdWord := BitVec 16

end Sys2Proof
end

