-- ==== Sys2Proof/Syntax.lean ====
section
/-! DEFINITION. The four commands, one constructor per row of spec/opcode_table.json (spec/30_encoding.md). -/

namespace Sys2Proof

/-- The container capacity the CAP bit selects (R12, R63; glossary R13). -/
inductive Capacity where
  | byte   -- CAP = 0: 8 bits, "byte words"
  | word   -- CAP = 1: 32 bits, "word-sized"
  deriving DecidableEq, Repr, Inhabited

/-- ShiftOrder (R13, R62). -/
inductive ShiftOrder where
  | lsbFirst   -- ORD = 0
  | msbFirst   -- ORD = 1
  deriving DecidableEq, Repr, Inhabited

/-- The drive direction of TURNAROUND (R67). What it means on the wire is not given, and is not interpreted (R103, D16). -/
inductive Direction where
  | write   -- DIR = 0
  | read    -- DIR = 1
  deriving DecidableEq, Repr, Inhabited

/-- The field OP = CMD[1:0] (R60): every value names a command (R70). -/
inductive Opcode where
  | pack
  | unpack
  | turnaround
  | xfer
  deriving DecidableEq, Repr, Inhabited

/-- The commands. The width is an integer, as in the rule R81, which keeps the source's negative width for a model of
this kind (DESIGN CHOICE, log 11; safe): an encoded command has a width in 0..63 (R64), and `Instr.WellFormed` says so. -/
inductive Instr where
  /-- PACK (R83): width, capacity, order. -/
  | pack (w : Int) (cap : Capacity) (ord : ShiftOrder)
  /-- UNPACK (R90): the sequence-present bit SP (R65), width, capacity, order. -/
  | unpack (present : Bool) (w : Int) (cap : Capacity) (ord : ShiftOrder)
  /-- TURNAROUND (R100): direction. -/
  | turnaround (dir : Direction)
  /-- XFER (R110): width, capacity, order. -/
  | xfer (w : Int) (cap : Capacity) (ord : ShiftOrder)
  deriving DecidableEq, Repr, Inhabited

end Sys2Proof
end

