-- ==== Sys2Proof/WellFormed.lean ====
section
/-! DEFINITION. Which commands have an encoding: the width field WID is six bits, unsigned (spec/30_encoding.md R64). -/

namespace Sys2Proof

/-- The widths WID can carry: 0..63 (R64). A width above the capacity is still a legal encoding (R71). -/
abbrev encodableWidth (w : Int) : Prop := 0 ≤ w ∧ w ≤ 63

/-- A command that some command word spells. TURNAROUND has no width field. -/
abbrev Instr.WellFormed : Instr → Prop
  | .pack w _ _ => encodableWidth w
  | .unpack _ w _ _ => encodableWidth w
  | .turnaround _ => True
  | .xfer w _ _ => encodableWidth w

/-- `Instr.WellFormed` as a check that runs. -/
def Instr.wellFormed : Instr → Bool
  | .pack w _ _ => decide (encodableWidth w)
  | .unpack _ w _ _ => decide (encodableWidth w)
  | .turnaround _ => true
  | .xfer w _ _ => decide (encodableWidth w)

end Sys2Proof
end

