-- ==== Sys2Proof/Decode.lean ====
section
/-! DEFINITION. Decoding and encoding of command words (spec/30_encoding.md). One word, 16 bits, no byte order (R43,
R60, R72). Decoding reads the word's fields and nothing else (R71). -/

namespace Sys2Proof

/-! ## Fields (R61 to R67) -/

/-- `cap(C)` (R12, R63): 0 selects 8, 1 selects 32. -/
def Capacity.ofBit (b : Bool) : Capacity := if b then .word else .byte

def Capacity.bit : Capacity → BitVec 1
  | .byte => 0#1
  | .word => 1#1

/-- ORD (R62): 0 LSB_FIRST, 1 MSB_FIRST. -/
def ShiftOrder.ofBit (b : Bool) : ShiftOrder := if b then .msbFirst else .lsbFirst

def ShiftOrder.bit : ShiftOrder → BitVec 1
  | .lsbFirst => 0#1
  | .msbFirst => 1#1

/-- DIR (R67): 0 WRITE, 1 READ. -/
def Direction.ofBit (b : Bool) : Direction := if b then .read else .write

def Direction.bit : Direction → BitVec 1
  | .write => 0#1
  | .read => 1#1

/-- The four values of the field OP (R60). -/
def Opcode.bits : Opcode → BitVec 2
  | .pack => 0b00#2
  | .unpack => 0b01#2
  | .turnaround => 0b10#2
  | .xfer => 0b11#2

/-- The command OP = CMD[1:0] names (R60). -/
def opcodeOf (cmd : CmdWord) : Opcode :=
  match cmd.getLsbD 1, cmd.getLsbD 0 with
  | false, false => .pack
  | false, true => .unpack
  | true, false => .turnaround
  | true, true => .xfer

/-- WID = CMD[9:4], unsigned (R64). -/
def widField (cmd : CmdWord) : Int := (cmd.extractLsb' 4 6).toNat

/-- CAP = CMD[3] (R63). -/
def capField (cmd : CmdWord) : Capacity := .ofBit (cmd.getLsbD 3)

/-- ORD = CMD[2] (R62). -/
def ordField (cmd : CmdWord) : ShiftOrder := .ofBit (cmd.getLsbD 2)

/-- SP = CMD[10] (R65). -/
def spField (cmd : CmdWord) : Bool := cmd.getLsbD 10

/-- DIR = CMD[2] (R67). -/
def dirField (cmd : CmdWord) : Direction := .ofBit (cmd.getLsbD 2)

/-! ## The opcode map (R69) -/

/-- One row of the map: a word w selects the row when `(w & mask) = match` (R69). -/
structure OpcodeRow where
  op      : Opcode
  pattern : CmdWord
  mask    : CmdWord
  deriving DecidableEq, Repr

/-- The whole map (R69). -/
def opcodeMap : List OpcodeRow :=
  [ ⟨.pack, 0x0000#16, 0xFC03#16⟩,
    ⟨.unpack, 0x0001#16, 0xF803#16⟩,
    ⟨.turnaround, 0x0002#16, 0xFFFB#16⟩,
    ⟨.xfer, 0x0003#16, 0xFC03#16⟩ ]

/-- A word selects a row (R69). -/
def OpcodeRow.selects (r : OpcodeRow) (cmd : CmdWord) : Bool := cmd &&& r.mask == r.pattern

/-- The operands of the row a word selects, read from the fields of its format (R61, R67). -/
def readFields (op : Opcode) (cmd : CmdWord) : Instr :=
  match op with
  | .pack => .pack (widField cmd) (capField cmd) (ordField cmd)
  | .unpack => .unpack (spField cmd) (widField cmd) (capField cmd) (ordField cmd)
  | .turnaround => .turnaround (dirField cmd)
  | .xfer => .xfer (widField cmd) (capField cmd) (ordField cmd)

/-- Why a word spells no command: a reserved bit of the format its OP names is set (R66). No other reason exists (R70). -/
inductive DecodeError where
  | reservedBitSet (op : Opcode) (cmd : CmdWord)
  deriving DecidableEq, Repr

/-- Decoding, total on all 65536 command words (R70). -/
def decode (cmd : CmdWord) : Except DecodeError Instr :=
  match opcodeMap.find? (fun r => r.selects cmd) with
  | some r => .ok (readFields r.op cmd)
  | none => .error (.reservedBitSet (opcodeOf cmd) cmd)

/-! ## Encoding -/

/-- Format B (R61): reserved bits 0, then SP, WID, CAP, ORD, OP, from bit 15 down. -/
def encodeB (sp : BitVec 1) (w : Int) (cap : Capacity) (ord : ShiftOrder) (op : Opcode) : CmdWord :=
  0#5 ++ sp ++ BitVec.ofInt 6 w ++ cap.bit ++ ord.bit ++ op.bits

/-- Format T (R67): reserved bits 0, then DIR, OP. -/
def encodeT (dir : Direction) : CmdWord := 0#13 ++ dir.bit ++ Opcode.turnaround.bits

/-- The word of a command (R61, R67). For PACK and XFER bit 10 is reserved and 0. -/
def encode : Instr → CmdWord
  | .pack w cap ord => encodeB 0#1 w cap ord .pack
  | .unpack present w cap ord => encodeB (BitVec.ofBool present) w cap ord .unpack
  | .turnaround dir => encodeT dir
  | .xfer w cap ord => encodeB 0#1 w cap ord .xfer

/-- The command an instruction is (R60). -/
def Instr.opcode : Instr → Opcode
  | .pack _ _ _ => .pack
  | .unpack _ _ _ _ => .unpack
  | .turnaround _ => .turnaround
  | .xfer _ _ _ => .xfer

/-! ## The host's entry -/

/-- The command word an instruction of `nbits` bits with value `w` puts on CMD: the bits above `nbits` are 0. -/
def cmdOfTableWord (nbits w : Nat) : CmdWord := BitVec.ofNat 16 (w % 2 ^ nbits)

/-- The command the decoder reads from an instruction of `nbits` bits with value `w`. Every command is one word of 16
bits (R60, R72), so a longer instruction does not exist. -/
def decodeTableWord (nbits w : Nat) : Option Instr :=
  if nbits ≤ 16 then
    match decode (cmdOfTableWord nbits w) with
    | .ok i => some i
    | .error _ => none
  else none

end Sys2Proof
end

