-- ==== Sys2Proof/Parameters.lean ====
section
/-! DEFINITION. The OPEN types the model takes as parameters: `DrvErr` and `Severity` (spec/00_scope.md R8;
spec/92_eei_decisions.md D21, D22). Each is given by an uninterpreted constant of Config, so that nothing is provable of
which details or levels there are, how many, or which two are the same. -/

namespace Sys2Proof.Config

/-- The failure details of the transport, as codes: `DrvErr` is the range of this uninterpreted function. Every nonempty
countable type is such a range (log 6). It has no body. -/
opaque drvErrCode : Nat → Nat

/-- The severity levels, as ranks: `Severity` is the range of this uninterpreted function in the order of the rationals.
Every nonempty countable total order is such a range (log 7). It has no body. -/
opaque severityRank : Nat → ℚ

end Sys2Proof.Config
end

