-- ==== Sys2Proof/Interface.lean ====
section
/-! DEFINITION. What crosses the block's ports: commands, responses, transport calls and answers, diagnostics, and the
events of the history (spec/10_state.md R23, R24, R30, R31, R32). -/

namespace Sys2Proof

/-- The input ports of one command (R23). -/
structure CommandPorts where
  cmd : CmdWord
  opa : Word
  ops : Lanes
  opl : Len
  deriving DecidableEq, Repr, Inhabited

/-- `DrvErr`, the OPEN type of a transport failure's detail (R8, D21): a parameter of the model, the range of the
uninterpreted `Config.drvErrCode` (log 6). The block copies a detail and never looks into it. -/
structure DrvErr where
  code     : Nat
  isDetail : ∃ k, Config.drvErrCode k = code
  deriving DecidableEq, Repr

/-- The k-th detail, so that one can be written down: `e0`, `e1` of spec/95_test_vectors.md. Whether two names are the same
detail is open. -/
def drvErrNamed (k : Nat) : DrvErr := { code := Config.drvErrCode k, isDetail := ⟨k, rfl⟩ }

/-- `Severity`, the OPEN totally ordered type of diagnostic levels (R8, D22): a parameter of the model, the range of the
uninterpreted `Config.severityRank`, with its order (log 7). -/
abbrev Severity := { q : ℚ // ∃ k, Config.severityRank k = q }

/-- The k-th level, so that one can be written down. How two named levels compare is open. -/
def severityNamed (k : Nat) : Severity := ⟨Config.severityRank k, k, rfl⟩

/-- One `(severity_level, formatted_message)` pair of the diagnostic port (R31). The message's type is open; text stands
for it (DESIGN CHOICE, log 7). -/
structure DiagMessage where
  level : Severity
  text  : String
  deriving DecidableEq, Repr

/-- The transport's answer to one call (R30, R128): 32 lanes, or a failure with its detail. -/
inductive TransportAnswer where
  | seq (incoming : Lanes)
  | fail (e : DrvErr)
  deriving DecidableEq, Repr, Inhabited

/-- The error kinds (R121). DriverFailure carries the transport's detail; the others carry nothing. -/
inductive ErrorKind where
  | invalidWidth
  | invalidTurnaroundCycles
  | nullInput
  | driverFailure (e : DrvErr)
  deriving DecidableEq, Repr, Inhabited

/-- The data fields of an OK response (R24). `respond Ok(fields)` names some of them, and every field the command's rule
does not name is 0 (R25, D34). -/
structure OkFields where
  res  : Word := 0
  seq  : Lanes := 0
  slen : Len := 0
  diro : BitVec 1 := 0
  deriving DecidableEq, Repr, Inhabited

/-- One response (R24): OK with its data fields, or a typed error with no data field (R25, D12, D13). -/
inductive Response where
  | ok (fields : OkFields)
  | err (kind : ErrorKind)
  deriving DecidableEq, Repr, Inhabited

/-- The events of the history (R32). -/
inductive Event where
  /-- `Cmd(CMD, OPA, OPS, OPL)`: a command is accepted. -/
  | cmd (p : CommandPorts)
  /-- `Xfer(w, outgoing)`: the transport is called. -/
  | xfer (w : Len) (outgoing : Lanes)
  /-- `XferAns(ans)`: the transport answers. -/
  | xferAns (ans : TransportAnswer)
  /-- `Diag(level, msg)`: a diagnostic message is delivered. -/
  | diag (m : DiagMessage)
  /-- `Resp(response)`: the command completes. -/
  | resp (r : Response)
  deriving DecidableEq, Repr, Inhabited

/-- The configuration inputs (R26). `none` is "not supplied" (R142, R143), not a value. -/
structure Configuration where
  trnMin       : Option (BitVec 32)
  trnMax       : Option (BitVec 32)
  hasDiag      : Bool
  diagMinLevel : Option Severity
  deriving DecidableEq, Repr, Inhabited

end Sys2Proof
end

