-- ==== Sys2Proof/Config.lean ====
section
/-! DEFINITION. The one free value of the model. The parameters spec/00_scope.md R8 fixes are the widths of
Word.lean and the capacities `capBits`; the ones it leaves OPEN are fields of State (`Configuration`), and the types `DrvErr`
and `Severity`, which Parameters.lean gives as uninterpreted constants. -/

namespace Sys2Proof.Config

/-- The transport's answer to a call that no scripted answer of State is left for: a FREE VALUE (R128: "A model draws
the answer freely, as an oracle with no law: any lanes, or any failure"; I3; log 5). It has no body, so nothing is
provable of it. It is applied to the draw counter and to the whole history up to and including the call, so that two
calls of one run, and calls after different pasts, are different draws (R47). -/
opaque transportOracle : Nat → List Event → TransportAnswer

end Sys2Proof.Config
end

