-- ==== Sys2Proof/Machine/State.lean ====
section
/-! DEFINITION. The machine's state as plain data, why a step can stop, and the state after reset
(spec/10_state.md, spec/70_reset_and_hazards.md). The block has no registers, program counter, flags or memory (R20,
R21, R27, R40): what a step needs beside its command is on ports, in the configuration, and in the history. -/

namespace Sys2Proof.Machine

/-- Why the machine stops with a fault. -/
inductive Fault where
  /-- A TURNAROUND was issued while TRN_MIN or TRN_MAX was not supplied; the command is named (R143, I10, D14). Raised by
  the meaning of TURNAROUND. Safe: the spec says a model must fault, and no bound is picked. -/
  | turnaroundBoundNotSupplied (command : Instr)
  /-- The caller read the current response when none exists (R29, I9, D26). Raised by `State.readResponse`, by no command.
  Safe: the spec says it is a fault, not a zero. -/
  | noCurrentResponse
  /-- A diagnostic was offered with HAS_DIAG true and DIAG_MIN_LEVEL not supplied (R142; DESIGN CHOICE, log 8). Raised by
  `emitDiag`; no command reaches it, because none emits a diagnostic (R131). Safe: a stop. -/
  | diagLevelNotSupplied
  deriving DecidableEq, Repr

/-- Why there is no step. -/
inductive Refusal where
  /-- An instruction that has no meaning in the model yet. Raised by an arm of `exec` only. Safe. -/
  | notModelled (mnemonic : String)
  /-- The command word has a reserved bit set and spells no command: no response, and this mark is kept for the run (R66,
  I1, D23). Raised by `step`. Safe. -/
  | reservedBitSet (cmd : CmdWord)
  /-- The caller has issued no command, and the block never chooses one itself (R21, R22; DESIGN CHOICE, log 2). Raised by
  `step`. Safe: a stop. -/
  | noCommandIssued
  deriving DecidableEq, Repr

/-- The state. -/
structure State where
  /-- TRN_MIN, TRN_MAX, HAS_DIAG, DIAG_MIN_LEVEL (R26). No command writes them. -/
  config   : Configuration
  /-- The input ports CMD, OPA, OPS, OPL, holding the command accepted last (R23). That they keep it after the command
  completes is the model's choice (DESIGN CHOICE, log 4). -/
  ports    : CommandPorts
  /-- The commands the caller has still to issue, in issue order (R22, R48, R148; log 1). -/
  pending  : List CommandPorts
  /-- The transport's answers the environment has fixed for the calls still to come, in call order (R22, R128, R148;
  log 5). When it is empty the answer is a free value. -/
  answers  : List TransportAnswer
  /-- THE MODEL'S OWN: the number of free answers drawn so far (log 5). -/
  draws    : Nat
  /-- The response on the response ports, if one exists (R24, R29, R146). -/
  response : Option Response
  /-- The history, oldest event first (R32). -/
  history  : List Event
  deriving DecidableEq, Repr

end Sys2Proof.Machine

namespace Sys2Proof

/-- The configuration when the adapter has supplied nothing: HAS_DIAG is false by default (R8), and the block sets none of
the other three (R34; log 3). -/
def Configuration.notSupplied : Configuration :=
  { trnMin := none, trnMax := none, hasDiag := false, diagMinLevel := none }

end Sys2Proof

namespace Sys2Proof.Machine

/-- The machine right after reset (R34, R140, R141): no response, empty history, nothing supplied (log 3), no command
issued (log 1), no transport answer fixed (log 5), input ports 0 (DESIGN CHOICE, log 4). -/
def State.reset : State where
  config := Configuration.notSupplied
  ports := { cmd := 0, opa := 0, ops := 0, opl := 0 }
  pending := []
  answers := []
  draws := 0
  response := none
  history := []

end Sys2Proof.Machine
end

