-- ==== Sys2Proof/Machine/Flags.lean ====
section
/-! DEFINITION. The block has no flags, condition codes or sticky status (spec/10_state.md R27). What a command reports
instead is the status ST of its one response: its codes and the rendering of a typed response on the response ports
(R24, R25; spec/60_exceptions.md R121). -/

namespace Sys2Proof

/-- The ST code of an error kind (R121, D12). -/
def statusCode : ErrorKind → BitVec 3
  | .invalidWidth => 1#3
  | .invalidTurnaroundCycles => 2#3
  | .nullInput => 3#3
  | .driverFailure _ => 4#3

/-- The response ports (R24). -/
structure ResponsePorts where
  st   : BitVec 3
  res  : Word
  seq  : Lanes
  slen : Len
  diro : BitVec 1
  drv  : Option DrvErr
  deriving DecidableEq, Repr

/-- DRV of an error: the transport's detail, present only under DriverFailure (R24, R25). -/
def drvField : ErrorKind → Option DrvErr
  | .driverFailure e => some e
  | .invalidWidth => none
  | .invalidTurnaroundCycles => none
  | .nullInput => none

/-- A response as the response ports show it (R24, R25): ST = 0 with the data fields, or the error's code with every other
field 0 and DRV absent except under DriverFailure. The zeros of an error mean nothing (R25, I8, D13). -/
def Response.onPorts : Response → ResponsePorts
  | .ok f => { st := 0, res := f.res, seq := f.seq, slen := f.slen, diro := f.diro, drv := none }
  | .err k => { st := statusCode k, res := 0, seq := 0, slen := 0, diro := 0, drv := drvField k }

/-- ST of a response (R24). -/
def Response.st (r : Response) : BitVec 3 := (Response.onPorts r).st

/-- The data fields a caller may use: an error response has none (R25, R139, I8). -/
def Response.okFields : Response → Option OkFields
  | .ok f => some f
  | .err _ => none

end Sys2Proof
end

