-- ==== Sys2Proof/Machine/Operands.lean ====
section
/-! DEFINITION. The operands of a command, formed from the ports (spec/30_encoding.md R68), and the two bit-order functions
(spec/00_scope.md R12, spec/40_pack_unpack.md R80). -/

namespace Sys2Proof.Machine

/-! ## Operands from the ports (R68) -/

/-- `sint32(v)`: the two's-complement reading (R10). -/
def sint32 (v : BitVec 32) : Int := v.toInt

/-- `word` of PACK and XFER: OPA[31:0], unsigned. -/
def wordOperand (s : State) : Word := s.ports.opa

/-- `cycles` of TURNAROUND: sint32(OPA) (D30). -/
def cyclesOperand (s : State) : Int := sint32 s.ports.opa

/-- `sequence` of UNPACK: lanes OPS[0..31]. -/
def sequenceOperand (s : State) : Lanes := s.ports.ops

/-- `len(sequence)` of UNPACK: OPL, unsigned. -/
def lengthOperand (s : State) : Nat := s.ports.opl.toNat

/-- The number of bits of a capacity (R12). -/
def capBits : Capacity → Nat
  | .byte => 8
  | .word => 32

/-! ## Bit order (R12, R80) -/

/-- `idx(i, w, ord)`: the sequence index of word bit i (R12). Defined for i < w. -/
def idx (i w : Nat) : ShiftOrder → Nat
  | .lsbFirst => i
  | .msbFirst => w - 1 - i

/-- `s[k] <- b` on the lanes of a port. -/
def setLane (s : Lanes) (k : Nat) (b : Bool) : Lanes :=
  if b then s ||| (1#32 <<< k) else s &&& ~~~(1#32 <<< k)

/-- The loop of `packseq` after its first `n` rounds: `s[idx(i, w, ord)] <- v[i]` for i = 0, ..., n-1 (R80). -/
def packRounds (v : Word) (w : Nat) (ord : ShiftOrder) : Nat → Lanes
  | 0 => 0
  | n + 1 => setLane (packRounds v w ord n) (idx n w ord) (v.getLsbD n)

/-- `packseq(v, w, ord)`, for 0 <= w <= 32 (R80). -/
def packseq (v : Word) (w : Nat) (ord : ShiftOrder) : Lanes := packRounds v w ord w

/-- The loop of `unpackval` after its first `n` rounds: `if s[idx(i, w, ord)] = 1 then r <- r | (1 << i)` (R80). -/
def unpackRounds (s : Lanes) (w : Nat) (ord : ShiftOrder) : Nat → Word
  | 0 => 0
  | n + 1 =>
    if s.getLsbD (idx n w ord) then unpackRounds s w ord n ||| (1#32 <<< n) else unpackRounds s w ord n

/-- `unpackval(s, w, ord)`, for 0 <= w <= 32 (R80). -/
def unpackval (s : Lanes) (w : Nat) (ord : ShiftOrder) : Word := unpackRounds s w ord w

end Sys2Proof.Machine
end

