-- ==== Sys2Proof/Machine/Ops.lean ====
section
/-! DEFINITION. The operations the meanings are written with: recording events, accepting and completing a command, the
error mechanism, the transport and diagnostic ports, and the caller's side (spec/10_state.md, spec/60_exceptions.md,
spec/70_reset_and_hazards.md). -/

namespace Sys2Proof.Machine

/-- What a meaning answers. -/
abbrev Result := Host.Outcome State Fault Refusal

/-! ## History and response -/

/-- Append one event to the history (R32). -/
def State.record (s : State) (e : Event) : State := { s with history := s.history ++ [e] }

/-- Put a response on the response ports (R24, R146). -/
def State.present (s : State) (r : Response) : State := { s with response := some r }

/-- A command is accepted: its values are on the input ports, the response of the command before ceases to be on the
response ports (R146), and `Cmd` enters the history (R32). The input ports keep these values until the next command is
accepted: the spec is silent on what they hold after a command completes (R146 speaks of the response ports), and keeping
them is the model's choice (DESIGN CHOICE, log 4). -/
def State.accept (s : State) (c : CommandPorts) (rest : List CommandPorts) : State :=
  State.record { s with ports := c, pending := rest, response := none } (.cmd c)

/-! ## The diagnostic port (R31, R130, R131) -/

/-- `emit Diag(level, msg)` (R130): no effect without the port or below the threshold, else the message is delivered and
`Diag` enters the history. With the port and no threshold supplied there is no rule (R142), and the machine faults
(DESIGN CHOICE, log 8; safe). -/
def emitDiag (m : DiagMessage) (s : State) : Result :=
  if s.config.hasDiag then
    match s.config.diagMinLevel with
    | none => .fault .diagLevelNotSupplied
    | some threshold => if m.level < threshold then .next s else .next (s.record (.diag m))
  else .next s

/-- Messages offered to the port one after another. -/
def emitDiags : List DiagMessage → State → Result
  | [], s => .next s
  | m :: ms, s =>
    match emitDiag m s with
    | .next s' => emitDiags ms s'
    | .fault f => .fault f
    | .refused r => .refused r

/-- The messages a command emits: "This block therefore emits **no** diagnostic message from any command" (R131, D22). -/
def diagMessages (_ : Instr) : List DiagMessage := []

/-! ## Completing a command -/

/-- The command `i` completes with the response `r`: its diagnostics, if any, then the response is on the ports and `Resp`
enters the history (R24, R32). -/
def complete (i : Instr) (r : Response) (s : State) : Result :=
  match emitDiags (diagMessages i) s with
  | .next s' => .next ((s'.present r).record (.resp r))
  | .fault f => .fault f
  | .refused q => .refused q

/-- `respond Ok(fields)` (R11). -/
def respondOk (i : Instr) (f : OkFields) (s : State) : Result := complete i (.ok f) s

/-- `raise E(info)`, the block's only form of exception (R11, R120): the command completes with the typed error and has no
other effect. No state is saved, no mode changes and control goes nowhere; there is nothing to return from (R127). -/
def raiseError (i : Instr) (k : ErrorKind) (s : State) : Result := complete i (.err k) s

/-! ## Checks -/

/-- The width check of PACK, UNPACK and XFER (R81): `0 <= w <= C`. -/
def widthFits (w : Int) (cap : Capacity) : Bool := 0 ≤ w && w ≤ (capBits cap : Int)

/-- The bound check of TURNAROUND: TRN_MIN <= cycles <= TRN_MAX, inclusive and signed (R101, C2). -/
def cyclesInBound (cycles : Int) (lo hi : BitVec 32) : Bool := !(cycles < sint32 lo || cycles > sint32 hi)

/-! ## The transport port (R30, R112, R128) -/

/-- The answer of the transport to the call just recorded in the history: the next scripted answer, or, when none is left,
a free value (R128; log 5). The transport always answers (R128, D19; log 9). -/
def State.nextAnswer (s : State) : TransportAnswer :=
  match s.answers with
  | a :: _ => a
  | [] => Config.transportOracle s.draws s.history

/-- The answer is used up: each call has an answer of its own (R128). -/
def State.dropAnswer (s : State) : State :=
  match s.answers with
  | _ :: rest => { s with answers := rest }
  | [] => { s with draws := s.draws + 1 }

/-- `ans <- Transport.transfer(w, out)`: one call, recorded as `Xfer` and then `XferAns` (R11, R32, R112). -/
def transfer (w : Nat) (out : Lanes) (s : State) : TransportAnswer × State :=
  let called := s.record (.xfer (BitVec.ofNat 6 w) out)
  (called.nextAnswer, called.dropAnswer.record (.xferAns called.nextAnswer))

/-! ## The caller's side (R139) and reset (R140) -/

/-- The caller reads the current response; when none exists, reading it is a fault (R29, I9). -/
def State.readResponse (s : State) : Except Fault Response :=
  match s.response with
  | some r => .ok r
  | none => .error .noCurrentResponse

/-- A configuration value with the name of its input (R26; the row "supply configuration" of R139). -/
inductive ConfigItem where
  | trnMin (v : BitVec 32)
  | trnMax (v : BitVec 32)
  | hasDiag (b : Bool)
  | diagMinLevel (level : Severity)
  deriving DecidableEq, Repr

/-- The configuration with the one input set. -/
def ConfigItem.setIn (item : ConfigItem) (c : Configuration) : Configuration :=
  match item with
  | .trnMin v => { c with trnMin := some v }
  | .trnMax v => { c with trnMax := some v }
  | .hasDiag b => { c with hasDiag := b }
  | .diagMinLevel l => { c with diagMinLevel := some l }

/-- The input already has a value. HAS_DIAG, a build parameter, always has one (R8: "default false"). -/
def ConfigItem.suppliedIn (item : ConfigItem) (c : Configuration) : Bool :=
  match item with
  | .trnMin _ => c.trnMin.isSome
  | .trnMax _ => c.trnMax.isSome
  | .hasDiag _ => true
  | .diagMinLevel _ => c.diagMinLevel.isSome

/-- The caller supplies one configuration value, any value (R139, R142), or `none` where it has no such move: once the run
has accepted a command, a value that is already supplied stays (R26, R139 "never: change the configuration during a run",
I17; log 10). -/
def State.supply (s : State) (item : ConfigItem) : Option State :=
  if s.history = [] ∨ item.suppliedIn s.config = false then some { s with config := item.setIn s.config } else none

/-- The adapter supplies the turnaround bound (R26, R142). -/
def State.supplyBound (s : State) (lo hi : BitVec 32) : Option State :=
  (s.supply (.trnMin lo)).bind fun t => t.supply (.trnMax hi)

/-- The adapter supplies the diagnostic threshold (R132, R142). -/
def State.supplyDiagLevel (s : State) (level : Severity) : Option State := s.supply (.diagMinLevel level)

/-- HAS_DIAG is fixed, before the run's first command (R139, R142). -/
def State.fixHasDiag (s : State) (b : Bool) : Option State := s.supply (.hasDiag b)

/-- The caller appends a command to those it issues (R139, R148). -/
def State.issue (s : State) (c : CommandPorts) : State := { s with pending := s.pending ++ [c] }

/-- Reset, taken between commands (R140): no response exists, the history of the new run is empty, and the configuration
is not changed. The caller's commands and the transport's answers of the new run are given anew. -/
def State.resetRun (s : State) (commands : List CommandPorts) (answers : List TransportAnswer) : State :=
  { State.reset with config := s.config, pending := commands, answers := answers, draws := s.draws }

end Sys2Proof.Machine
end

