-- ==== Sys2Proof/Machine/PackUnpack.lean ====
section
/-! DEFINITION. PACK and UNPACK (spec/40_pack_unpack.md). -/

namespace Sys2Proof.Machine

/-- PACK (R83): the low w bits of OPA as a w-element sequence. -/
def execPack (w : Int) (cap : Capacity) (ord : ShiftOrder) (s : State) : Result :=
  let i := Instr.pack w cap ord
  if widthFits w cap then
    respondOk i { seq := packseq (wordOperand s) w.toNat ord, slen := BitVec.ofInt 6 w } s
  else raiseError i .invalidWidth s

/-- UNPACK (R90): a word from the first w elements of OPS. The checks stand in the order of R125: buffer presence (R91),
capacity (R81), length (R92). -/
def execUnpack (present : Bool) (w : Int) (cap : Capacity) (ord : ShiftOrder) (s : State) : Result :=
  let i := Instr.unpack present w cap ord
  if present then
    if widthFits w cap then
      if (lengthOperand s : Int) < w then raiseError i .invalidWidth s
      else respondOk i { res := unpackval (sequenceOperand s) w.toNat ord } s
    else raiseError i .invalidWidth s
  else raiseError i .nullInput s

end Sys2Proof.Machine
end

