-- ==== Sys2Proof/Machine/Transfer.lean ====
section
/-! DEFINITION. XFER (spec/42_transfer.md). -/

namespace Sys2Proof.Machine

/-- The response to the transport's answer (R113, R114): a failure passes through unmodified, and lanes are read in the
order that packed the outgoing sequence. -/
def xferResponse (ans : TransportAnswer) (w : Nat) (ord : ShiftOrder) : Response :=
  match ans with
  | .fail e => .err (.driverFailure e)
  | .seq inc => .ok { res := unpackval inc w ord }

/-- XFER (R110): validate (no call on InvalidWidth, R111), pack, exactly one transport call (R112), unpack. -/
def execXfer (w : Int) (cap : Capacity) (ord : ShiftOrder) (s : State) : Result :=
  let i := Instr.xfer w cap ord
  if widthFits w cap then
    let answered := transfer w.toNat (packseq (wordOperand s) w.toNat ord) s
    complete i (xferResponse answered.1 w.toNat ord) answered.2
  else raiseError i .invalidWidth s

end Sys2Proof.Machine
end

