-- ==== Sys2Proof/Machine/Turnaround.lean ====
section
/-! DEFINITION. TURNAROUND (spec/41_turnaround.md). -/

namespace Sys2Proof.Machine

/-- TURNAROUND (R100): the count is accepted when it lies in [TRN_MIN, TRN_MAX] (R101), and comes back unchanged with the
direction (R102, R103). With a bound not supplied it has no meaning, and the machine faults, naming the command (R143). -/
def execTurnaround (dir : Direction) (s : State) : Result :=
  let i := Instr.turnaround dir
  match s.config.trnMin, s.config.trnMax with
  | some lo, some hi =>
    if cyclesInBound (cyclesOperand s) lo hi then respondOk i { res := s.ports.opa, diro := dir.bit } s
    else raiseError i .invalidTurnaroundCycles s
  | none, _ => .fault (.turnaroundBoundNotSupplied i)
  | some _, none => .fault (.turnaroundBoundNotSupplied i)

end Sys2Proof.Machine
end

