-- ==== Sys2Proof/Machine/Dispatch.lean ====
section
/-! DEFINITION. One arm per command: the meaning it calls. -/

namespace Sys2Proof.Machine

def exec (i : Instr) (s : State) : Host.Outcome State Fault Refusal :=
  match i with
  | .pack w cap ord => Sys2Proof.Machine.execPack w cap ord s
  | .unpack present w cap ord => Sys2Proof.Machine.execUnpack present w cap ord s
  | .turnaround dir => Sys2Proof.Machine.execTurnaround dir s
  | .xfer w cap ord => Sys2Proof.Machine.execXfer w cap ord s

end Sys2Proof.Machine
end

