-- ==== Sys2Proof/Machine/Step.lean ====
section
/-! DEFINITION. One step is one command (spec/10_state.md R22). The block fetches nothing (R21): the caller puts the next
command on the ports. -/

namespace Sys2Proof.Machine

/-- One step: the next command the caller issues is decoded, accepted and run to its response. A word with a reserved bit
set is refused before it is accepted, with no response and no event (R66). Without a command there is no step (log 2). -/
def step (s : State) : Host.Outcome State Fault Refusal :=
  match s.pending with
  | [] => .refused .noCommandIssued
  | c :: rest =>
    match decode c.cmd with
    | .ok i => exec i (s.accept c rest)
    | .error (.reservedBitSet _ cmd) => .refused (.reservedBitSet cmd)

/-- `s` with the command word of an instruction of `nbits` bits with value `w` where `step` takes its next command: on CMD
of the command the caller issues next, or, when the caller has issued none, as a command with every operand port 0 (the
assembler's `.word`, R74). -/
def State.withFetchWord (s : State) (nbits w : Nat) : State :=
  match s.pending with
  | [] => { s with pending := [{ cmd := cmdOfTableWord nbits w, opa := 0, ops := 0, opl := 0 }] }
  | c :: rest => { s with pending := { c with cmd := cmdOfTableWord nbits w } :: rest }

end Sys2Proof.Machine
end

