-- ==== Sys2Proof/Machine/Assembler.lean ====
section
/-! DEFINITION. The assembler of spec/30_encoding.md R74 and the pseudo-instructions of R75: from one line of text to the
values the caller puts on the input ports. It is the caller's tool, not part of a step; the syntax is the spec's own (D28). -/

namespace Sys2Proof.Machine

/-- The lines of R74, and the pseudo-instructions of R75. -/
inductive AsmLine where
  | pack (w : Len) (cap : Capacity) (ord : ShiftOrder) (word : Word)
  | unpack (w : Len) (cap : Capacity) (ord : ShiftOrder) (seq : Lanes) (len : Len)
  | unpackNone (w : Len) (cap : Capacity) (ord : ShiftOrder)
  | turn (dir : Direction) (cycles : Word)
  | xfer (w : Len) (cap : Capacity) (ord : ShiftOrder) (word : Word)
  | rawWord (cmd : CmdWord)
  | pack8 (ord : ShiftOrder) (word : Word)
  | pack32 (ord : ShiftOrder) (word : Word)
  | unpack8 (ord : ShiftOrder) (seq : Lanes)
  | unpack32 (ord : ShiftOrder) (seq : Lanes)
  | xfer8 (ord : ShiftOrder) (word : Word)
  | xfer32 (ord : ShiftOrder) (word : Word)
  deriving DecidableEq, Repr

/-- The expansion of a pseudo-instruction (R75); a line of R74 stands for itself. -/
def AsmLine.expand : AsmLine → AsmLine
  | .pack w cap ord word => .pack w cap ord word
  | .unpack w cap ord seq len => .unpack w cap ord seq len
  | .unpackNone w cap ord => .unpackNone w cap ord
  | .turn dir cycles => .turn dir cycles
  | .xfer w cap ord word => .xfer w cap ord word
  | .rawWord cmd => .rawWord cmd
  | .pack8 ord word => .pack 8 .byte ord word
  | .pack32 ord word => .pack 32 .word ord word
  | .unpack8 ord seq => .unpack 8 .byte ord seq 8
  | .unpack32 ord seq => .unpack 32 .word ord seq 32
  | .xfer8 ord word => .xfer 8 .byte ord word
  | .xfer32 ord word => .xfer 32 .word ord word

/-- The ports of a command: every operand port it does not name is 0 (R74). -/
def portsOf (i : Instr) (opa : Word := 0) (ops : Lanes := 0) (opl : Len := 0) : CommandPorts :=
  { cmd := encode i, opa := opa, ops := ops, opl := opl }

/-- What a line assembles to (R74, R75). -/
def AsmLine.assemble : AsmLine → CommandPorts
  | .pack w cap ord word => portsOf (.pack w.toNat cap ord) (opa := word)
  | .unpack w cap ord seq len => portsOf (.unpack true w.toNat cap ord) (ops := seq) (opl := len)
  | .unpackNone w cap ord => portsOf (.unpack false w.toNat cap ord)
  | .turn dir cycles => portsOf (.turnaround dir) (opa := cycles)
  | .xfer w cap ord word => portsOf (.xfer w.toNat cap ord) (opa := word)
  | .rawWord cmd => { cmd := cmd, opa := 0, ops := 0, opl := 0 }
  | .pack8 ord word => portsOf (.pack 8 .byte ord) (opa := word)
  | .pack32 ord word => portsOf (.pack 32 .word ord) (opa := word)
  | .unpack8 ord seq => portsOf (.unpack true 8 .byte ord) (ops := seq) (opl := 8)
  | .unpack32 ord seq => portsOf (.unpack true 32 .word ord) (ops := seq) (opl := 32)
  | .xfer8 ord word => portsOf (.xfer 8 .byte ord) (opa := word)
  | .xfer32 ord word => portsOf (.xfer 32 .word ord) (opa := word)

/-! ## Text (R74). Details the rule leaves open are in log 12. -/

/-- A blank between tokens. -/
def isBlank (c : Char) : Bool := c == ' ' || c == '\t'

/-- A letter in lower case: mnemonics are case-insensitive (R74). -/
def lowerChar (c : Char) : Char := if 65 ≤ c.toNat && c.toNat ≤ 90 then Char.ofNat (c.toNat + 32) else c

/-- `;` starts a comment (R74). -/
def stripComment (l : List Char) : List Char := l.takeWhile (fun c => c != ';')

def trimBlanks (l : List Char) : List Char := ((l.dropWhile isBlank).reverse.dropWhile isBlank).reverse

/-- The pieces between commas; at least one piece. -/
def splitCommas : List Char → List (List Char)
  | [] => [[]]
  | c :: cs =>
    if c == ',' then [] :: splitCommas cs
    else
      match splitCommas cs with
      | p :: ps => (c :: p) :: ps
      | [] => [[c]]

/-- The value of a digit: 0 to 9, then a to f. -/
def digitValue (c : Char) : Option Nat :=
  let n := c.toNat
  if 48 ≤ n && n ≤ 57 then some (n - 48) else if 97 ≤ n && n ≤ 102 then some (n - 87) else none

/-- Digits in a base, most significant first, after the value read so far. -/
def readDigits (base : Nat) : List Char → Nat → Option Nat
  | [], acc => some acc
  | c :: cs, acc =>
    match digitValue c with
    | some d => if d < base then readDigits base cs (base * acc + d) else none
    | none => none

/-- "Numbers are decimal, or hexadecimal with a `0x` prefix" (R74). -/
def readNat : List Char → Option Nat
  | [] => none
  | ['0', 'x'] => none
  | '0' :: 'x' :: d :: ds => readDigits 16 (d :: ds) 0
  | d :: ds => readDigits 10 (d :: ds) 0

/-- A number that fits an unsigned port of `n` bits. -/
def readPort (n : Nat) (l : List Char) : Option (BitVec n) :=
  match readNat l with
  | some v => if v < 2 ^ n then some (BitVec.ofNat n v) else none
  | none => none

/-- `<cycles>`: a signed 32-bit count, as its two's-complement pattern (R74, D30). -/
def readCycles (l : List Char) : Option Word :=
  match l with
  | '-' :: ds =>
    match readNat ds with
    | some v => if v ≤ 2 ^ 31 then some (BitVec.ofInt 32 (-(v : Int))) else none
    | none => none
  | ds =>
    match readNat ds with
    | some v => if v < 2 ^ 31 then some (BitVec.ofNat 32 v) else none
    | none => none

/-- The text after `key=`. -/
def afterKey (key : List Char) (l : List Char) : Option (List Char) :=
  match key, l with
  | [], '=' :: rest => some rest
  | [], [] => none
  | [], _ :: _ => none
  | _ :: _, [] => none
  | k :: ks, c :: cs => if k == c then afterKey ks cs else none

def readWidth (l : List Char) : Option Len := (afterKey ['w'] l).bind (readPort 6)

def readLen (l : List Char) : Option Len := (afterKey ['l', 'e', 'n'] l).bind (readPort 6)

/-- `cap=<8|32>`. The rule leaves open whether this is a number, so that `0x8` would do, or one of two tokens: here it is
the token `8` or the token `32`, and any other spelling makes the line malformed (DESIGN CHOICE, log 12). -/
def readCap (l : List Char) : Option Capacity :=
  match afterKey ['c', 'a', 'p'] l with
  | some v => if v == ['8'] then some .byte else if v == ['3', '2'] then some .word else none
  | none => none

def readOrd (l : List Char) : Option ShiftOrder :=
  if l == ['l', 's', 'b'] then some .lsbFirst else if l == ['m', 's', 'b'] then some .msbFirst else none

def readDir (l : List Char) : Option Direction :=
  if l == ['w', 'r', 'i', 't', 'e'] then some .write else if l == ['r', 'e', 'a', 'd'] then some .read else none

/-- The operands of a line, by its mnemonic (R74, R75). -/
def readOperands (mnemonic : List Char) (args : List (List Char)) : Option AsmLine :=
  match String.ofList mnemonic, args with
  | "pack", [w, c, o, v] => do return .pack (← readWidth w) (← readCap c) (← readOrd o) (← readPort 32 v)
  | "unpack", [w, c, o, v] =>
    if v == ['n', 'o', 'n', 'e'] then do return .unpackNone (← readWidth w) (← readCap c) (← readOrd o) else none
  | "unpack", [w, c, o, v, n] =>
    do return .unpack (← readWidth w) (← readCap c) (← readOrd o) (← readPort 32 v) (← readLen n)
  | "turn", [d, n] => do return .turn (← readDir d) (← readCycles n)
  | "xfer", [w, c, o, v] => do return .xfer (← readWidth w) (← readCap c) (← readOrd o) (← readPort 32 v)
  | ".word", [v] => do return .rawWord (← readPort 16 v)
  | "pack8", [o, v] => do return .pack8 (← readOrd o) (← readPort 32 v)
  | "pack32", [o, v] => do return .pack32 (← readOrd o) (← readPort 32 v)
  | "unpack8", [o, v] => do return .unpack8 (← readOrd o) (← readPort 32 v)
  | "unpack32", [o, v] => do return .unpack32 (← readOrd o) (← readPort 32 v)
  | "xfer8", [o, v] => do return .xfer8 (← readOrd o) (← readPort 32 v)
  | "xfer32", [o, v] => do return .xfer32 (← readOrd o) (← readPort 32 v)
  | _, _ => none

/-- One line of text: nothing to assemble (a blank or a comment), a line, or no line of the syntax. -/
inductive AsmText where
  | nothing
  | line (a : AsmLine)
  | malformed
  deriving DecidableEq, Repr

/-- Reading one line: a mnemonic, then operands between commas, then an optional comment (R74). -/
def readLine (text : List Char) : AsmText :=
  match trimBlanks ((stripComment text).map lowerChar) with
  | [] => .nothing
  | c :: cs =>
    let mnemonic := (c :: cs).takeWhile (fun d => !isBlank d)
    let rest := (c :: cs).dropWhile (fun d => !isBlank d)
    match readOperands mnemonic ((splitCommas rest).map trimBlanks) with
    | some a => .line a
    | none => .malformed

/-! ## Writing a line (R74, R75) -/

/-- The digit of a value below 16: 0 to 9, then a to f. -/
def digitChar (d : Nat) : Char := if d < 10 then Char.ofNat (48 + d) else Char.ofNat (87 + d)

/-- The low `n` hexadecimal digits of a value, most significant first. -/
def hexDigits : Nat → Nat → List Char
  | 0, _ => []
  | n + 1, v => hexDigits n (v / 16) ++ [digitChar (v % 16)]

/-- A number of at most eight hexadecimal digits, in hexadecimal. -/
def writeHex (v : Nat) : List Char := '0' :: 'x' :: hexDigits 8 v

/-- A width or length, 0 to 63, in decimal. -/
def writeLen (v : Len) : List Char :=
  if v.toNat < 10 then [digitChar v.toNat] else [digitChar (v.toNat / 10), digitChar (v.toNat % 10)]

/-- A signed count: a minus sign, if it is negative, and its magnitude. -/
def writeCycles (v : Word) : List Char := if v.toInt < 0 then '-' :: writeHex (-v.toInt).toNat else writeHex v.toNat

def writeCap : Capacity → List Char
  | .byte => ['8']
  | .word => ['3', '2']

def writeOrd : ShiftOrder → List Char
  | .lsbFirst => ['l', 's', 'b']
  | .msbFirst => ['m', 's', 'b']

def writeDir : Direction → List Char
  | .write => ['w', 'r', 'i', 't', 'e']
  | .read => ['r', 'e', 'a', 'd']

/-- Operands with a comma and a blank between them. -/
def joinOperands : List (List Char) → List Char
  | [] => []
  | [x] => x
  | x :: y :: ys => x ++ ',' :: ' ' :: joinOperands (y :: ys)

/-- The first three operands of a line with a width. -/
def writeShape (w : Len) (cap : Capacity) (ord : ShiftOrder) : List (List Char) :=
  ['w' :: '=' :: writeLen w, ['c', 'a', 'p', '='] ++ writeCap cap, writeOrd ord]

/-- A mnemonic as characters. -/
def AsmLine.mnemonic : AsmLine → List Char
  | .pack _ _ _ _ => ['p', 'a', 'c', 'k']
  | .unpack _ _ _ _ _ => ['u', 'n', 'p', 'a', 'c', 'k']
  | .unpackNone _ _ _ => ['u', 'n', 'p', 'a', 'c', 'k']
  | .turn _ _ => ['t', 'u', 'r', 'n']
  | .xfer _ _ _ _ => ['x', 'f', 'e', 'r']
  | .rawWord _ => ['.', 'w', 'o', 'r', 'd']
  | .pack8 _ _ => ['p', 'a', 'c', 'k', '8']
  | .pack32 _ _ => ['p', 'a', 'c', 'k', '3', '2']
  | .unpack8 _ _ => ['u', 'n', 'p', 'a', 'c', 'k', '8']
  | .unpack32 _ _ => ['u', 'n', 'p', 'a', 'c', 'k', '3', '2']
  | .xfer8 _ _ => ['x', 'f', 'e', 'r', '8']
  | .xfer32 _ _ => ['x', 'f', 'e', 'r', '3', '2']

/-- The operands of a line, as R74 and R75 order them. -/
def AsmLine.operands : AsmLine → List (List Char)
  | .pack w cap ord v => writeShape w cap ord ++ [writeHex v.toNat]
  | .unpack w cap ord v n => writeShape w cap ord ++ [writeHex v.toNat, ['l', 'e', 'n', '='] ++ writeLen n]
  | .unpackNone w cap ord => writeShape w cap ord ++ [['n', 'o', 'n', 'e']]
  | .turn dir v => [writeDir dir, writeCycles v]
  | .xfer w cap ord v => writeShape w cap ord ++ [writeHex v.toNat]
  | .rawWord cmd => [writeHex cmd.toNat]
  | .pack8 ord v => [writeOrd ord, writeHex v.toNat]
  | .pack32 ord v => [writeOrd ord, writeHex v.toNat]
  | .unpack8 ord v => [writeOrd ord, writeHex v.toNat]
  | .unpack32 ord v => [writeOrd ord, writeHex v.toNat]
  | .xfer8 ord v => [writeOrd ord, writeHex v.toNat]
  | .xfer32 ord v => [writeOrd ord, writeHex v.toNat]

/-- The text of a line in the syntax of R74 and R75. -/
def AsmLine.write (a : AsmLine) : List Char := a.mnemonic ++ ' ' :: joinOperands a.operands

end Sys2Proof.Machine
end

