-- ==== Sys2Proof/Safety.lean ====
section
/-! DEFINITION. What claims are stated in terms of: what a response must be, said bit by bit and apart from the meanings'
loops; the blocks of events a history is made of (spec/10_state.md R28, R32); the machine's invariant; and the record of a
run (spec/70_reset_and_hazards.md R148). -/

namespace Sys2Proof.Machine

/-! ## Bit order, lane by lane -/

/-- Lane k of `s` is word bit `idx(k, w, ord)` for k < w, and every lane at w or above is 0: the w-element sequence of `v`
(R12, R80, R85). `idx` is its own inverse on [0, w), so this is `s[idx(i, w, ord)] = v[i]`. -/
def SequenceOf (v : Word) (w : Nat) (ord : ShiftOrder) (s : Lanes) : Prop :=
  ∀ k, s.getLsbD k = (decide (k < w) && v.getLsbD (idx k w ord))

/-- Bit i of `r` is sequence element `idx(i, w, ord)` for i < w, and every bit at w or above is 0: the word of the first w
elements of `s` (R12, R80, R94). -/
def WordOf (s : Lanes) (w : Nat) (ord : ShiftOrder) (r : Word) : Prop :=
  ∀ i, r.getLsbD i = (decide (i < w) && s.getLsbD (idx i w ord))

/-- `v[w-1:0]` zero-extended (R9, R10): 0 when w = 0. -/
def lowBits (v : Word) (w : Nat) : Word := BitVec.ofNat 32 (v.toNat % 2 ^ w)

/-! ## What each command's response is -/

/-- The width of a bit-order command is valid (R81). -/
abbrev ValidWidth (w : Int) (cap : Capacity) : Prop := 0 ≤ w ∧ w ≤ (capBits cap : Int)

/-- The response of PACK (R83). -/
def PackAnswers (w : Int) (cap : Capacity) (ord : ShiftOrder) (opa : Word) (r : Response) : Prop :=
  (ValidWidth w cap → ∃ q, SequenceOf opa w.toNat ord q ∧ r = .ok { seq := q, slen := BitVec.ofNat 6 w.toNat }) ∧
  (¬ ValidWidth w cap → r = .err .invalidWidth)

/-- The response of UNPACK (R90, R125). -/
def UnpackAnswers (present : Bool) (w : Int) (cap : Capacity) (ord : ShiftOrder) (ops : Lanes) (opl : Len)
    (r : Response) : Prop :=
  (present = false → r = .err .nullInput) ∧
  (present = true → ValidWidth w cap → w ≤ (opl.toNat : Int) → ∃ v, WordOf ops w.toNat ord v ∧ r = .ok { res := v }) ∧
  (present = true → ¬ ValidWidth w cap → r = .err .invalidWidth) ∧
  (present = true → (opl.toNat : Int) < w → r = .err .invalidWidth)

/-- The response of TURNAROUND, when a bound is supplied (R100, R101, R102). -/
def TurnaroundAnswers (c : Configuration) (dir : Direction) (opa : Word) (r : Response) : Prop :=
  ∃ lo hi, c.trnMin = some lo ∧ c.trnMax = some hi ∧
    (lo.toInt ≤ opa.toInt ∧ opa.toInt ≤ hi.toInt →
      r = .ok { res := opa, diro := if dir = .read then 1#1 else 0#1 }) ∧
    (opa.toInt < lo.toInt ∨ hi.toInt < opa.toInt → r = .err .invalidTurnaroundCycles)

/-- The response of XFER to the transport's answer (R113, R114). -/
def XferAnswers (w : Nat) (ord : ShiftOrder) (ans : TransportAnswer) (r : Response) : Prop :=
  match ans with
  | .fail e => r = .err (.driverFailure e)
  | .seq inc => ∃ v, WordOf inc w ord v ∧ r = .ok { res := v }

/-- The state after a command that answers `r` and makes no transport call: the response is on the ports and `Resp` is in
the history, and nothing else differs. -/
def State.completed (s : State) (r : Response) : State :=
  { s with response := some r, history := s.history ++ [.resp r] }

/-- The state after a command that makes one transport call and answers `r`. The call uses up the answer it got: the next
scripted one, or a free one. -/
def State.completedAfterCall (s : State) (w : Len) (out : Lanes) (ans : TransportAnswer) (r : Response) : State :=
  { s with
    answers := s.answers.tail
    draws := if s.answers = [] then s.draws + 1 else s.draws
    response := some r
    history := s.history ++ [.xfer w out, .xferAns ans, .resp r] }

/-- The two commands agree on the operand ports the command `i` reads (R23, R68, R91). -/
def AgreeOnPortsRead (i : Instr) (p q : CommandPorts) : Prop :=
  match i with
  | .pack _ _ _ => p.opa = q.opa
  | .unpack present _ _ _ => present = true → p.ops = q.ops ∧ p.opl = q.opl
  | .turnaround _ => p.opa = q.opa
  | .xfer _ _ _ => p.opa = q.opa

/-- The events a step from `s` to `t` added to the history. -/
def eventsAdded (s t : State) : List Event := t.history.drop s.history.length

/-- Where the step from `s` to `t` and the step from `u` to `v` both called the transport, they got the same answer. -/
def SameTransportAnswer (s t u v : State) : Prop :=
  ∀ a b, .xferAns a ∈ eventsAdded s t → .xferAns b ∈ eventsAdded u v → a = b

/-! ## The blocks of a history -/

/-- One transport call: what it was called with and what it answered. -/
structure TransportCall where
  width    : Len
  outgoing : Lanes
  answer   : TransportAnswer
  deriving DecidableEq, Repr

/-- The events of one command. -/
structure CommandBlock where
  ports : CommandPorts
  call  : Option TransportCall
  diags : List DiagMessage
  resp  : Response
  deriving DecidableEq, Repr

/-- `Xfer` and then `XferAns` (R112), or no event. -/
def callEvents : Option TransportCall → List Event
  | none => []
  | some c => [.xfer c.width c.outgoing, .xferAns c.answer]

/-- "in the order Cmd, then any Xfer/XferAns or Diag events, then Resp" (R32). -/
def CommandBlock.events (b : CommandBlock) : List Event :=
  [.cmd b.ports] ++ callEvents b.call ++ b.diags.map .diag ++ [.resp b.resp]

/-- The block holds what its own command, its own ports, the configuration and its own transport answer determine, and
nothing else (R28): which call is made (R47, R111, R112), no diagnostic (R131), and which response. -/
def CommandBlock.Conforms (c : Configuration) (b : CommandBlock) : Prop :=
  b.diags = [] ∧
  match decode b.ports.cmd with
  | .error _ => False
  | .ok (.pack w cap ord) => b.call = none ∧ PackAnswers w cap ord b.ports.opa b.resp
  | .ok (.unpack present w cap ord) =>
    b.call = none ∧ UnpackAnswers present w cap ord b.ports.ops b.ports.opl b.resp
  | .ok (.turnaround dir) => b.call = none ∧ TurnaroundAnswers c dir b.ports.opa b.resp
  | .ok (.xfer w cap ord) =>
    (ValidWidth w cap →
      ∃ call, b.call = some call ∧ call.width = BitVec.ofNat 6 w.toNat ∧
        SequenceOf b.ports.opa w.toNat ord call.outgoing ∧ XferAnswers w.toNat ord call.answer b.resp) ∧
    (¬ ValidWidth w cap → b.call = none ∧ b.resp = .err .invalidWidth)

/-! ## The invariant -/

/-- The history is a row of whole conforming blocks, the response on the ports is the last block's, and the input ports hold
its command (R23, R28, R32, R48, R49, R145, R146). That the input ports still hold it after the command completes is the
model's choice (log 4). -/
def State.Inv (s : State) : Prop :=
  ∃ blocks : List CommandBlock,
    s.history = blocks.flatMap CommandBlock.events ∧
    (∀ b ∈ blocks, b.Conforms s.config) ∧
    s.response = blocks.getLast?.map CommandBlock.resp ∧
    ∀ b, blocks.getLast? = some b → s.ports = b.ports

/-! ## Runs (R148) -/

/-- How a run ended. Only a finished run is one; a refusal or a fault leaves its mark (R66, R148). -/
inductive RunEnd where
  | finished
  | refused (r : Refusal)
  | faulted (f : Fault)
  deriving DecidableEq, Repr

/-- The observation of a run: its history, and how it ended (R32, R148). -/
structure RunRecord where
  history : List Event
  ended   : RunEnd
  deriving DecidableEq, Repr

/-- At most `n` commands of a run. With none left to run the run has finished. For a run whose list of commands is empty
that is the model's choice: R148 ends a run with the response of its last command, and such a run has none (DESIGN CHOICE,
log 18). -/
def runCommands : Nat → State → RunRecord
  | 0, s => { history := s.history, ended := .finished }
  | n + 1, s =>
    match step s with
    | .next t => runCommands n t
    | .fault f => { history := s.history, ended := .faulted f }
    | .refused r => { history := s.history, ended := .refused r }

/-- The run of every command the caller issues from `s` (R148). With no command it is finished at once, its history as it
stands (DESIGN CHOICE, log 18). -/
def runOf (s : State) : RunRecord := runCommands s.pending.length s

/-! ## Reading a history -/

/-- The event is a response. -/
def isRespEvent : Event → Bool
  | .resp _ => true
  | .cmd _ => false
  | .xfer _ _ => false
  | .xferAns _ => false
  | .diag _ => false

end Sys2Proof.Machine
end

