-- ==== Sys2Proof/Certificates/Slice0/Obligations.lean ====
section
/-! DEFINITION. The statements for the provers. Each docstring names the rule of spec/ it formalises; where a clause rests on
a choice the spec marks as its own (a decision D<n>, or "derived") or on the model's own log, it says so. -/

open Sys2Proof Sys2Proof.Machine

/-! ## Encoding (spec/30_encoding.md) -/

/-- Decoding an encoded well-formed command gives the command back, for every command and every operand the encoding admits
(R61, R67, R69; the layout is the spec's own, D6). -/
def Obligations.DecodeEncodeRoundTrip : Prop :=
  ∀ i : Instr, i.WellFormed → decode (encode i) = .ok i

/-- Every word that decodes is the encoding of a well-formed command: decoding drops no bit (R69, R70; D6). -/
def Obligations.EncodeDecodeRoundTrip : Prop :=
  ∀ (cmd : CmdWord) (i : Instr), decode cmd = .ok i → i.WellFormed ∧ encode i = cmd

/-- A word spells a command exactly when the reserved bits of the format its OP selects are 0, the command is the one OP
names, and every other word is refused (R60, R66, R70; refusing is the spec's decision D23). -/
def Obligations.DecodeRefusesExactlyReservedBits : Prop :=
  ∀ cmd : CmdWord,
    (cmd.extractLsb' 0 2 = 0b00#2 →
      if cmd.extractLsb' 10 6 = 0#6 then ∃ w cap ord, decode cmd = .ok (.pack w cap ord)
      else decode cmd = .error (.reservedBitSet .pack cmd)) ∧
    (cmd.extractLsb' 0 2 = 0b01#2 →
      if cmd.extractLsb' 11 5 = 0#5 then ∃ p w cap ord, decode cmd = .ok (.unpack p w cap ord)
      else decode cmd = .error (.reservedBitSet .unpack cmd)) ∧
    (cmd.extractLsb' 0 2 = 0b10#2 →
      if cmd.extractLsb' 3 13 = 0#13 then ∃ d, decode cmd = .ok (.turnaround d)
      else decode cmd = .error (.reservedBitSet .turnaround cmd)) ∧
    (cmd.extractLsb' 0 2 = 0b11#2 →
      if cmd.extractLsb' 10 6 = 0#6 then ∃ w cap ord, decode cmd = .ok (.xfer w cap ord)
      else decode cmd = .error (.reservedBitSet .xfer cmd))

/-- The rows of the opcode map are disjoint: no word selects two of them (R69, "derived: from rule R60"). -/
def Obligations.OpcodeRowsAreDisjoint : Prop :=
  ∀ (cmd : CmdWord) (r q : OpcodeRow), r ∈ opcodeMap → q ∈ opcodeMap → r.selects cmd = true → q.selects cmd = true →
    r = q

/-- A word that matches a row of the map decodes to the row's command with its fields read from the bits the formats give them
(R61 to R65, R67, R69; the layout is the spec's own, D3, D6, D7, D10, D16). -/
def Obligations.DecodeReadsFields : Prop :=
  ∀ cmd : CmdWord,
    (cmd &&& 0xFC03#16 = 0x0000#16 →
      decode cmd = .ok (.pack (cmd.extractLsb' 4 6).toNat (if cmd.getLsbD 3 then .word else .byte)
        (if cmd.getLsbD 2 then .msbFirst else .lsbFirst))) ∧
    (cmd &&& 0xF803#16 = 0x0001#16 →
      decode cmd = .ok (.unpack (cmd.getLsbD 10) (cmd.extractLsb' 4 6).toNat (if cmd.getLsbD 3 then .word else .byte)
        (if cmd.getLsbD 2 then .msbFirst else .lsbFirst))) ∧
    (cmd &&& 0xFFFB#16 = 0x0002#16 →
      decode cmd = .ok (.turnaround (if cmd.getLsbD 2 then .read else .write))) ∧
    (cmd &&& 0xFC03#16 = 0x0003#16 →
      decode cmd = .ok (.xfer (cmd.extractLsb' 4 6).toNat (if cmd.getLsbD 3 then .word else .byte)
        (if cmd.getLsbD 2 then .msbFirst else .lsbFirst)))

/-- Words written out bit by bit from the encoding strings of R61 and R67 decode to the commands they stand for, and words
with a reserved bit set are refused (vectors T-ENC of spec/95_test_vectors.md). -/
def Obligations.SampleWordsDecode : Prop :=
  decode 0b0000000010000100#16 = .ok (.pack 8 .byte .msbFirst) ∧
  decode 0b0000011000001001#16 = .ok (.unpack true 32 .word .lsbFirst) ∧
  decode 0b0000000000000110#16 = .ok (.turnaround .read) ∧
  decode 0b0000001000001111#16 = .ok (.xfer 32 .word .msbFirst) ∧
  decode 0b0000010000000000#16 = .error (.reservedBitSet .pack 0x0400#16) ∧
  decode 0b0000000000001010#16 = .error (.reservedBitSet .turnaround 0x000A#16)

/-! ## A step (spec/10_state.md R22) -/

/-- A step runs the decoded command: the caller's next command is put on the input ports, the response of the command before
ceases to exist, `Cmd` enters the history, and the step is `exec` of the command there (R22, R23, R32, R146; the
transaction-level step is the spec's decision D5). -/
def Obligations.StepRunsDecodedCommand : Prop :=
  ∀ (s : State) (c : CommandPorts) (rest : List CommandPorts) (i : Instr),
    s.pending = c :: rest → decode c.cmd = .ok i →
    step s = exec i { s with ports := c, pending := rest, response := none, history := s.history ++ [.cmd c] }

/-- A word with a reserved bit set is refused, with the word as the mark (R66, D23); so is a step when the caller has issued
no command (the model's choice, log 2). -/
def Obligations.StepRefusesWhatSpellsNoCommand : Prop :=
  (∀ (s : State) (c : CommandPorts) (rest : List CommandPorts) (e : DecodeError),
    s.pending = c :: rest → decode c.cmd = .error e → step s = .refused (.reservedBitSet c.cmd)) ∧
  (∀ s : State, s.pending = [] → step s = .refused .noCommandIssued)

/-- Every command that decodes completes, but for a TURNAROUND whose bound is not supplied, which faults and names the
command (R22, R120, R143; D5, D14). That an XFER completes in every state rests on the spec's own assumption D19, that the transport
always answers (log 9, unsafe). -/
def Obligations.EveryDecodedCommandCompletes : Prop :=
  ∀ (s : State) (c : CommandPorts) (rest : List CommandPorts) (i : Instr),
    s.pending = c :: rest → decode c.cmd = .ok i →
    ((∀ dir, i ≠ .turnaround dir) → ∃ t, step s = .next t) ∧
    (∀ dir lo hi, i = .turnaround dir → s.config.trnMin = some lo → s.config.trnMax = some hi → ∃ t, step s = .next t) ∧
    (∀ dir, i = .turnaround dir → (s.config.trnMin = none ∨ s.config.trnMax = none) →
      step s = .fault (.turnaroundBoundNotSupplied i))

/-- A step takes one command and gives one response: the command leaves the caller's list and is on the input ports, its
events stand together between its `Cmd` and its `Resp`, and the response on the ports is that `Resp` (R22, R32, R48;
D5, D24). That the input ports keep the command after it completes is the model's choice (log 4). -/
def Obligations.StepIsOneWholeCommand : Prop :=
  ∀ s t : State, step s = .next t →
    ∃ (c : CommandPorts) (mid : List Event) (r : Response),
      s.pending = c :: t.pending ∧ t.ports = c ∧ t.response = some r ∧
      t.history = s.history ++ .cmd c :: mid ++ [.resp r] ∧
      (∀ p, .cmd p ∉ mid) ∧ (∀ q, .resp q ∉ mid)

/-! ## PACK (spec/40_pack_unpack.md) -/

/-- PACK with a valid width completes, in every state: SEQ carries word bit idx(k, w, ord) on lane k < w and 0 above,
SLEN = w, RES and DIRO are 0, and nothing but the response and its event differs (R83, R85; the zeros are the spec's
decisions D31 and D34). -/
def Obligations.PackCompletes : Prop :=
  ∀ (s : State) (w : Int) (cap : Capacity) (ord : ShiftOrder), ValidWidth w cap →
    ∃ q : Lanes, (∀ k, q.getLsbD k = (decide (k < w.toNat) && s.ports.opa.getLsbD (idx k w.toNat ord))) ∧
      exec (.pack w cap ord) s =
        .next (s.completed (.ok { res := 0, seq := q, slen := BitVec.ofNat 6 w.toNat, diro := 0 }))

/-- PACK from the raw word: a step on a word that matches the row of PACK answers the pseudocode of R83 on the word's own
bits, the low w bits of OPA in w lanes, or InvalidWidth (R83; zero lanes and unnamed fields D31, D34; layout D3, D6). -/
def Obligations.PackWordAnswers : Prop :=
  ∀ (s : State) (c : CommandPorts) (rest : List CommandPorts), s.pending = c :: rest → c.cmd &&& 0xFC03#16 = 0x0000#16 →
    ∃ t, step s = .next t ∧
      ((c.cmd.extractLsb' 4 6).toNat ≤ (if c.cmd.getLsbD 3 then 32 else 8) →
        ∃ q : Lanes, t.response = some (.ok { res := 0, seq := q, slen := c.cmd.extractLsb' 4 6, diro := 0 }) ∧
          ∀ k, q.getLsbD k = (decide (k < (c.cmd.extractLsb' 4 6).toNat) &&
            c.opa.getLsbD (if c.cmd.getLsbD 2 then (c.cmd.extractLsb' 4 6).toNat - 1 - k else k))) ∧
      ((if c.cmd.getLsbD 3 then 32 else 8) < (c.cmd.extractLsb' 4 6).toNat →
        t.response = some (.err .invalidWidth))

/-- PACK reads only OPA[w-1:0]: the bits above do not affect the response and are not an error (R84), with the rule's
example, pack(0x1FF, 8, LSB_FIRST). The example states the whole next state; that lanes 8 to 31, RES and DIRO are 0 in it are
the spec's decisions D31 and D34 (log 14), not R84's words. -/
def Obligations.PackIgnoresBitsAboveWidth : Prop :=
  (∀ (s : State) (v : Word) (w : Int) (cap : Capacity) (ord : ShiftOrder),
    (∀ k, k < w.toNat → v.getLsbD k = s.ports.opa.getLsbD k) →
    ∃ t u, exec (.pack w cap ord) s = .next t ∧
      exec (.pack w cap ord) { s with ports := { s.ports with opa := v } } = .next u ∧ t.response = u.response ∧
      (ValidWidth w cap → ∃ f, t.response = some (.ok f))) ∧
  (∀ s : State, s.ports.opa = 0x1FF#32 →
    exec (.pack 8 .byte .lsbFirst) s = .next (s.completed (.ok { seq := 0xFF#32, slen := 8#6 })))

/-- The closed forms and corner cases of PACK (R86, each "derived: from rule R80" or from R12): LSB_FIRST keeps the low w
bits; MSB_FIRST reverses within w; w = 0 gives the empty sequence; the word 0 gives 0; and the capacity does not matter
while the width fits both. -/
def Obligations.PackClosedForms : Prop :=
  ∀ (s t : State) (w : Int) (cap : Capacity) (ord : ShiftOrder) (f : OkFields),
    exec (.pack w cap ord) s = .next t → t.response = some (.ok f) →
    f.slen.toNat = w.toNat ∧
    (ord = .lsbFirst → f.seq.toNat = s.ports.opa.toNat % 2 ^ w.toNat) ∧
    (ord = .msbFirst → ∀ k, f.seq.getLsbD k = (decide (k < w.toNat) && s.ports.opa.getLsbD (w.toNat - 1 - k))) ∧
    (w = 0 → f.seq = 0 ∧ f.slen = 0) ∧
    (s.ports.opa = 0 → f.seq = 0) ∧
    (cap = .byte → exec (.pack w .word ord) s = .next t)

/-- PACK, UNPACK with its sequence present, and XFER raise InvalidWidth when w < 0 or w > C, and do nothing else (R81, R122;
that UNPACK and XFER check is the spec's decision D8). -/
def Obligations.InvalidWidthIsRaised : Prop :=
  ∀ (s : State) (w : Int) (cap : Capacity) (ord : ShiftOrder), (w < 0 ∨ (capBits cap : Int) < w) →
    exec (.pack w cap ord) s = .next (s.completed (.err .invalidWidth)) ∧
    exec (.unpack true w cap ord) s = .next (s.completed (.err .invalidWidth)) ∧
    exec (.xfer w cap ord) s = .next (s.completed (.err .invalidWidth))

/-! ## UNPACK (spec/40_pack_unpack.md) -/

/-- UNPACK of a present sequence of at least w elements, with a valid width, completes in every state: RES carries sequence
element idx(i, w, ord) on bit i < w and 0 above, the other data fields are 0, and nothing but the response and its event
differs (R90, R94; the zeros of the other fields are the spec's decision D34). -/
def Obligations.UnpackCompletes : Prop :=
  ∀ (s : State) (w : Int) (cap : Capacity) (ord : ShiftOrder), ValidWidth w cap → w ≤ (s.ports.opl.toNat : Int) →
    ∃ v : Word, (∀ i, v.getLsbD i = (decide (i < w.toNat) && s.ports.ops.getLsbD (idx i w.toNat ord))) ∧
      exec (.unpack true w cap ord) s = .next (s.completed (.ok { res := v, seq := 0, slen := 0, diro := 0 }))

/-- The errors of UNPACK in their order: NullInput when the sequence is absent, whatever the width and the length; else
InvalidWidth for the capacity; else InvalidWidth for a sequence shorter than w (R91, R92, R125; the spec's decisions D9,
D10, D11). -/
def Obligations.UnpackErrorsInOrder : Prop :=
  ∀ (s : State) (w : Int) (cap : Capacity) (ord : ShiftOrder),
    exec (.unpack false w cap ord) s = .next (s.completed (.err .nullInput)) ∧
    (w < 0 ∨ (capBits cap : Int) < w → exec (.unpack true w cap ord) s = .next (s.completed (.err .invalidWidth))) ∧
    ((s.ports.opl.toNat : Int) < w → exec (.unpack true w cap ord) s = .next (s.completed (.err .invalidWidth)))

/-- UNPACK from the raw word: a step on a word that matches the row of UNPACK answers the pseudocode of R90 on the word's own
bits: NullInput, or InvalidWidth, or the word of the first w lanes of OPS (R90, R91, R92; D8, D9, D10, D11, D34). -/
def Obligations.UnpackWordAnswers : Prop :=
  ∀ (s : State) (c : CommandPorts) (rest : List CommandPorts), s.pending = c :: rest → c.cmd &&& 0xF803#16 = 0x0001#16 →
    ∃ t, step s = .next t ∧
      (c.cmd.getLsbD 10 = false → t.response = some (.err .nullInput)) ∧
      (c.cmd.getLsbD 10 = true →
        ((if c.cmd.getLsbD 3 then 32 else 8) < (c.cmd.extractLsb' 4 6).toNat ∨
          c.opl.toNat < (c.cmd.extractLsb' 4 6).toNat) → t.response = some (.err .invalidWidth)) ∧
      (c.cmd.getLsbD 10 = true → (c.cmd.extractLsb' 4 6).toNat ≤ (if c.cmd.getLsbD 3 then 32 else 8) →
        (c.cmd.extractLsb' 4 6).toNat ≤ c.opl.toNat →
        ∃ v : Word, t.response = some (.ok { res := v, seq := 0, slen := 0, diro := 0 }) ∧
          ∀ i, v.getLsbD i = (decide (i < (c.cmd.extractLsb' 4 6).toNat) &&
            c.ops.getLsbD (if c.cmd.getLsbD 2 then (c.cmd.extractLsb' 4 6).toNat - 1 - i else i)))

/-- UNPACK reads only the first w elements: two sequences that agree on lanes below w, both at least w long, give the same
response (R93, C5; "derived: from 00_scope.md rule R12"). -/
def Obligations.UnpackReadsOnlyFirstElements : Prop :=
  ∀ (s : State) (ops : Lanes) (opl : Len) (w : Int) (cap : Capacity) (ord : ShiftOrder),
    (∀ k, k < w.toNat → ops.getLsbD k = s.ports.ops.getLsbD k) →
    w ≤ (s.ports.opl.toNat : Int) → w ≤ (opl.toNat : Int) →
    ∃ t u, exec (.unpack true w cap ord) s = .next t ∧
      exec (.unpack true w cap ord) { s with ports := { s.ports with ops := ops, opl := opl } } = .next u ∧
      t.response = u.response

/-- Corner cases of UNPACK's result (R94; the range is "derived: from rule R80"): RES < 2^w, an all-false sequence gives 0,
and w = 0 gives 0. -/
def Obligations.UnpackResultRange : Prop :=
  ∀ (s t : State) (w : Int) (cap : Capacity) (ord : ShiftOrder) (f : OkFields),
    exec (.unpack true w cap ord) s = .next t → t.response = some (.ok f) →
    f.res.toNat < 2 ^ w.toNat ∧ (s.ports.ops = 0 → f.res = 0) ∧ (w = 0 → f.res = 0) ∧
    (ord = .lsbFirst → f.res.toNat = s.ports.ops.toNat % 2 ^ w.toNat)

/-! ## The laws of the bit-order functions (R82) -/

/-- The laws of R82: unpackval of packseq is v mod 2^w, and the two orders give sequences reversed element for element, for
every width, order and word (law 1 at widths other than 8 and 32 and words of 2^w and above is "derived"). -/
def Obligations.BitOrderLaws : Prop :=
  ∀ (v : Word) (w : Nat), w ≤ 32 →
    (∀ ord, (unpackval (packseq v w ord) w ord).toNat = v.toNat % 2 ^ w) ∧
    (∀ k, k < w → (packseq v w .msbFirst).getLsbD k = (packseq v w .lsbFirst).getLsbD (w - 1 - k))

/-- The round trip on the machine: what PACK answers in one state, given back to UNPACK in any other state with the same
width, capacity and order, gives the low w bits of the packed word (R82 law 1, R83, R90; "derived" beyond full widths). -/
def Obligations.PackThenUnpackGivesLowBits : Prop :=
  ∀ (s t u : State) (w : Int) (cap : Capacity) (ord : ShiftOrder) (f : OkFields),
    exec (.pack w cap ord) s = .next t → t.response = some (.ok f) →
    u.ports.ops = f.seq → u.ports.opl = f.slen →
    exec (.unpack true w cap ord) u =
      .next (u.completed (.ok { res := BitVec.ofNat 32 (s.ports.opa.toNat % 2 ^ w.toNat) }))

/-! ## TURNAROUND (spec/41_turnaround.md) -/

/-- TURNAROUND with a supplied bound and a count inside it completes, in every state: RES is the count as it stood on OPA,
DIRO the direction, the other data fields 0, and nothing but the response and its event differs; no transport call is
made (R100, R102, R103; D15, D16, D30, D34). -/
def Obligations.TurnaroundCompletes : Prop :=
  ∀ (s : State) (dir : Direction) (lo hi : BitVec 32), s.config.trnMin = some lo → s.config.trnMax = some hi →
    lo.toInt ≤ s.ports.opa.toInt → s.ports.opa.toInt ≤ hi.toInt →
    exec (.turnaround dir) s =
      .next (s.completed (.ok { res := s.ports.opa, seq := 0, slen := 0,
                                diro := match dir with
                                  | .write => 0#1
                                  | .read => 1#1 }))

/-- TURNAROUND from the raw word: with the bound supplied, a step on a word that matches the row of TURNAROUND answers the
pseudocode of R100 on the word's own bits: direction CMD[2], cycles sint32(OPA), InvalidTurnaroundCycles outside the bound,
else RES = OPA and DIRO = CMD[2] with SEQ and SLEN 0 (R100). The word layout and the direction code are the spec's decisions
D6 and D16, the response standing for the signal D15 (log 14, unsafe), the signed reading and RES = OPA D30, and the zeros
D34. -/
def Obligations.TurnaroundWordAnswers : Prop :=
  ∀ (s : State) (c : CommandPorts) (rest : List CommandPorts) (lo hi : BitVec 32),
    s.pending = c :: rest → c.cmd &&& 0xFFFB#16 = 0x0002#16 →
    s.config.trnMin = some lo → s.config.trnMax = some hi →
    ∃ t, step s = .next t ∧
      (c.opa.toInt < lo.toInt ∨ c.opa.toInt > hi.toInt → t.response = some (.err .invalidTurnaroundCycles)) ∧
      (lo.toInt ≤ c.opa.toInt → c.opa.toInt ≤ hi.toInt →
        t.response = some (.ok { res := c.opa, seq := 0, slen := 0, diro := c.cmd.extractLsb' 2 1 }))

/-- The bound check: every count outside the inclusive range is rejected, and every count inside it is accepted (R101; the
corrected check of conflict C2, not the AND check). -/
def Obligations.TurnaroundRejectsExactlyOutsideBound : Prop :=
  ∀ (s : State) (dir : Direction) (lo hi : BitVec 32), s.config.trnMin = some lo → s.config.trnMax = some hi →
    ∃ t, exec (.turnaround dir) s = .next t ∧
      (s.ports.opa.toInt < lo.toInt ∨ s.ports.opa.toInt > hi.toInt →
        t = s.completed (.err .invalidTurnaroundCycles)) ∧
      (¬ (s.ports.opa.toInt < lo.toInt ∨ s.ports.opa.toInt > hi.toInt) → ∃ f, t.response = some (.ok f))

/-- A TURNAROUND while TRN_MIN or TRN_MAX is not supplied faults and names the command; no default bound is taken (R143,
D14). -/
def Obligations.TurnaroundWithoutBoundFaults : Prop :=
  ∀ (s : State) (dir : Direction), (s.config.trnMin = none ∨ s.config.trnMax = none) →
    exec (.turnaround dir) s = .fault (.turnaroundBoundNotSupplied (.turnaround dir))

/-- Corner cases of the bound (R104, "derived: from rule R101"): an empty range rejects every count, a one-value range accepts
exactly that value, and the direction never decides. -/
def Obligations.TurnaroundRangeCorners : Prop :=
  ∀ (s t : State) (dir : Direction) (lo hi : BitVec 32), s.config.trnMin = some lo → s.config.trnMax = some hi →
    exec (.turnaround dir) s = .next t →
    (hi.toInt < lo.toInt → t.response = some (.err .invalidTurnaroundCycles)) ∧
    (lo = hi → ((∃ f, t.response = some (.ok f)) ↔ s.ports.opa = lo)) ∧
    (∀ other u, exec (.turnaround other) s = .next u →
      (t.response = some (.err .invalidTurnaroundCycles) ↔ u.response = some (.err .invalidTurnaroundCycles)))

/-! ## XFER (spec/42_transfer.md) -/

/-- When XFER raises InvalidWidth it makes no transport call: no answer is used and no `Xfer` event enters the history
(R111). Of the events it adds, none is `Xfer` or `XferAns`. -/
def Obligations.XferValidatesBeforeCalling : Prop :=
  ∀ (s t : State) (w : Int) (cap : Capacity) (ord : ShiftOrder), exec (.xfer w cap ord) s = .next t →
    t.response = some (.err .invalidWidth) →
    t.answers = s.answers ∧ t.draws = s.draws ∧ (∀ n out, .xfer n out ∉ eventsAdded s t) ∧
      ∀ a, .xferAns a ∉ eventsAdded s t

/-- An XFER that passes validation makes exactly one call, with width w and the packed word, lanes at w and above 0, and
records `Xfer` and then `XferAns`; the answer is the transport's next one (R112). It completes in every state, whatever the
answer: that rests on the spec's own assumption D19 (log 9, unsafe), and the draw used up when no scripted answer is left is
the model's own (log 5). -/
def Obligations.XferCallsTransportOnce : Prop :=
  ∀ (s : State) (w : Int) (cap : Capacity) (ord : ShiftOrder), ValidWidth w cap →
    ∃ (out : Lanes) (ans : TransportAnswer) (r : Response),
      (∀ k, out.getLsbD k = (decide (k < w.toNat) && s.ports.opa.getLsbD (idx k w.toNat ord))) ∧
      (∀ a rest, s.answers = a :: rest → ans = a) ∧ 0 ≤ w ∧ w ≤ 32 ∧
      exec (.xfer w cap ord) s = .next (s.completedAfterCall (BitVec.ofNat 6 w.toNat) out ans r)

/-- When the transport answers Seq(inc), XFER completes with RES read from lanes inc[0..w-1] in the order that packed the
outgoing sequence, the other data fields 0 (R110, R114; D17, D20, D34). -/
def Obligations.XferUnpacksAnswer : Prop :=
  ∀ (s : State) (w : Int) (cap : Capacity) (ord : ShiftOrder) (inc : Lanes) (rest : List TransportAnswer),
    ValidWidth w cap → s.answers = .seq inc :: rest →
    ∃ (out : Lanes) (v : Word),
      (∀ i, v.getLsbD i = (decide (i < w.toNat) && inc.getLsbD (idx i w.toNat ord))) ∧
      exec (.xfer w cap ord) s =
        .next { s with
                answers := rest
                response := some (.ok { res := v, seq := 0, slen := 0, diro := 0 })
                history := s.history ++
                  [.xfer (BitVec.ofNat 6 w.toNat) out, .xferAns (.seq inc), .resp (.ok { res := v })] }

/-- When the transport answers Fail(e), XFER completes with ST = 4 and DRV = e, unchanged, after that one call: no second
call and no retry (R113). -/
def Obligations.XferPassesFailureThrough : Prop :=
  ∀ (s : State) (w : Int) (cap : Capacity) (ord : ShiftOrder) (e : DrvErr) (rest : List TransportAnswer),
    ValidWidth w cap → s.answers = .fail e :: rest →
    ∃ (t : State) (out : Lanes) (r : Response), exec (.xfer w cap ord) s = .next t ∧ t.response = some r ∧
      r.onPorts.st = 4#3 ∧ r.onPorts.drv = some e ∧ t.answers = rest ∧
      t.history = s.history ++ [.xfer (BitVec.ofNat 6 w.toNat) out, .xferAns (.fail e), .resp r]

/-- XFER from the raw word: a step on a word that matches the row of XFER, with the transport's next answer fixed, answers the
pseudocode of R110 on the word's own bits: InvalidWidth with no call, DriverFailure(e) passed through, or the word of the
first w incoming lanes, after one call with the packed word (R110, R111, R112, R113, R114; D8, D17, D20, D34). -/
def Obligations.XferWordAnswers : Prop :=
  ∀ (s : State) (c : CommandPorts) (rest : List CommandPorts) (a : TransportAnswer) (as : List TransportAnswer),
    s.pending = c :: rest → c.cmd &&& 0xFC03#16 = 0x0003#16 → s.answers = a :: as →
    ∃ t, step s = .next t ∧
      ((if c.cmd.getLsbD 3 then 32 else 8) < (c.cmd.extractLsb' 4 6).toNat →
        t.response = some (.err .invalidWidth) ∧ t.answers = a :: as) ∧
      ((c.cmd.extractLsb' 4 6).toNat ≤ (if c.cmd.getLsbD 3 then 32 else 8) →
        t.answers = as ∧
        (∃ (out : Lanes) (r : Response),
          t.history = s.history ++ [.cmd c, .xfer (c.cmd.extractLsb' 4 6) out, .xferAns a, .resp r] ∧
          ∀ k, out.getLsbD k = (decide (k < (c.cmd.extractLsb' 4 6).toNat) &&
            c.opa.getLsbD (if c.cmd.getLsbD 2 then (c.cmd.extractLsb' 4 6).toNat - 1 - k else k))) ∧
        (∀ e, a = .fail e → t.response = some (.err (.driverFailure e))) ∧
        (∀ inc, a = .seq inc →
          ∃ v : Word, t.response = some (.ok { res := v, seq := 0, slen := 0, diro := 0 }) ∧
            ∀ i, v.getLsbD i = (decide (i < (c.cmd.extractLsb' 4 6).toNat) &&
              inc.getLsbD (if c.cmd.getLsbD 2 then (c.cmd.extractLsb' 4 6).toNat - 1 - i else i))))

/-- A transport that echoes the outgoing sequence gives RES = OPA mod 2^w, in both orders (R115, "derived: from
40_pack_unpack.md rule R82"). -/
def Obligations.XferEchoGivesLowBits : Prop :=
  ∀ (s t : State) (w : Int) (cap : Capacity) (ord : ShiftOrder) (n : Len) (out : Lanes) (r : Response),
    exec (.xfer w cap ord) s = .next t → eventsAdded s t = [.xfer n out, .xferAns (.seq out), .resp r] →
    r = .ok { res := BitVec.ofNat 32 (s.ports.opa.toNat % 2 ^ w.toNat) } ∧ t.response = some r

/-! ## Errors (spec/60_exceptions.md) -/

/-- Errors are precise: a local error has no effect beyond its response, and a DriverFailure has made exactly one transport
call, which answered that failure (R126). -/
def Obligations.ErrorsArePrecise : Prop :=
  ∀ (i : Instr) (s t : State) (k : ErrorKind), exec i s = .next t → t.response = some (.err k) →
    match k with
    | .driverFailure e => ∃ n out, t = s.completedAfterCall n out (.fail e) (.err (.driverFailure e))
    | .invalidWidth => t = s.completed (.err .invalidWidth)
    | .invalidTurnaroundCycles => t = s.completed (.err .invalidTurnaroundCycles)
    | .nullInput => t = s.completed (.err .nullInput)

/-- InvalidWidth is raised in the cases of R122 and no others: never by TURNAROUND (for UNPACK the cases rest on the spec's
decisions D8, D9, D11). -/
def Obligations.InvalidWidthExactly : Prop :=
  ∀ (i : Instr) (s t : State), exec i s = .next t →
    (t.response = some (.err .invalidWidth) ↔
      match i with
      | .pack w cap _ => ¬ ValidWidth w cap
      | .unpack present w cap _ => present = true ∧ (¬ ValidWidth w cap ∨ (s.ports.opl.toNat : Int) < w)
      | .turnaround _ => False
      | .xfer w cap _ => ¬ ValidWidth w cap)

/-- InvalidTurnaroundCycles is raised only by TURNAROUND, when the signed count lies outside the inclusive range [TRN_MIN,
TRN_MAX] (R123). -/
def Obligations.InvalidTurnaroundCyclesExactly : Prop :=
  ∀ (i : Instr) (s t : State), exec i s = .next t →
    (t.response = some (.err .invalidTurnaroundCycles) ↔
      ∃ dir lo hi, i = .turnaround dir ∧ s.config.trnMin = some lo ∧ s.config.trnMax = some hi ∧
        ¬ (lo.toInt ≤ s.ports.opa.toInt ∧ s.ports.opa.toInt ≤ hi.toInt))

/-- NullInput is raised only by UNPACK with its sequence absent, and DriverFailure only by an XFER that passed validation and
whose call answered that failure (R121, R124; D10). -/
def Obligations.NullInputAndDriverFailureExactly : Prop :=
  ∀ (i : Instr) (s t : State), exec i s = .next t →
    (t.response = some (.err .nullInput) ↔ ∃ w cap ord, i = .unpack false w cap ord) ∧
    (∀ e, t.response = some (.err (.driverFailure e)) ↔
      ∃ w cap ord, i = .xfer w cap ord ∧ ValidWidth w cap ∧ .xferAns (.fail e) ∈ eventsAdded s t)

/-- The status codes of the error kinds, and that 5, 6 and 7 are never produced (R121; the numbers are the spec's decision
D12). -/
def Obligations.StatusCodes : Prop :=
  (∀ f, (Response.ok f).st = 0#3) ∧ (Response.err .invalidWidth).st = 1#3 ∧
  (Response.err .invalidTurnaroundCycles).st = 2#3 ∧ (Response.err .nullInput).st = 3#3 ∧
  (∀ e, (Response.err (.driverFailure e)).st = 4#3) ∧ (∀ r : Response, r.st.toNat ≤ 4)

/-- Fields a command does not write: on the ports, an OK response shows 0 in every field its command does not name and no DRV,
and an error response shows 0 in every data field and no DRV except the detail of a DriverFailure (R25; D13, D34). -/
def Obligations.UnwrittenResponseFieldsAreZero : Prop :=
  ∀ (i : Instr) (s t : State), exec i s = .next t →
    ∃ r, t.response = some r ∧
      (∀ k, r = .err k → r.onPorts.st ≠ 0 ∧ r.onPorts.res = 0 ∧ r.onPorts.seq = 0 ∧ r.onPorts.slen = 0 ∧
        r.onPorts.diro = 0 ∧ ∀ e, r.onPorts.drv = some e ↔ k = .driverFailure e) ∧
      (∀ f, r = .ok f → r.onPorts.st = 0 ∧ r.onPorts.drv = none ∧
        match i with
        | .pack _ _ _ => r.onPorts.res = 0 ∧ r.onPorts.diro = 0
        | .unpack _ _ _ _ => r.onPorts.seq = 0 ∧ r.onPorts.slen = 0 ∧ r.onPorts.diro = 0
        | .turnaround _ => r.onPorts.seq = 0 ∧ r.onPorts.slen = 0
        | .xfer _ _ _ => r.onPorts.seq = 0 ∧ r.onPorts.slen = 0 ∧ r.onPorts.diro = 0)

/-! ## Frames -/

/-- PACK, UNPACK and TURNAROUND change nothing but the response and the history, to which they add their `Resp`: no
configuration, no input port, no waiting command, and no transport call (R20, R26, R28, R47; D14; that the input ports keep
their values is the model's choice, log 4). -/
def Obligations.LocalCommandsFrame : Prop :=
  ∀ (i : Instr) (s t : State), (∀ w cap ord, i ≠ .xfer w cap ord) → exec i s = .next t →
    t.config = s.config ∧ t.ports = s.ports ∧ t.pending = s.pending ∧ t.answers = s.answers ∧ t.draws = s.draws ∧
    ∃ r, t.response = some r ∧ t.history = s.history ++ [.resp r]

/-- XFER changes nothing but the response, the history, and the transport's answers, of which it uses up one or none (R26,
R28, R47, R112; the free draw is the model's, log 5, and so is that the input ports keep their values, log 4). -/
def Obligations.XferFrame : Prop :=
  ∀ (w : Int) (cap : Capacity) (ord : ShiftOrder) (s t : State), exec (.xfer w cap ord) s = .next t →
    t.config = s.config ∧ t.ports = s.ports ∧ t.pending = s.pending ∧
    ((t.answers = s.answers ∧ t.draws = s.draws) ∨
      (∃ a, s.answers = a :: t.answers ∧ t.draws = s.draws) ∨
      (s.answers = [] ∧ t.answers = [] ∧ t.draws = s.draws + 1)) ∧
    ∃ added r, t.response = some r ∧ t.history = s.history ++ added ++ [.resp r]

/-- No command changes the configuration: not DIAG_MIN_LEVEL (R132), and not TRN_MIN, TRN_MAX or HAS_DIAG (R26, R134; the
spec's decisions D14, D22, D25; log 14). -/
def Obligations.NoStepChangesConfiguration : Prop :=
  ∀ s t : State, step s = .next t → t.config = s.config

/-! ## Independence of commands (R28, R127) -/

/-- A command's response is a function of its command word, the operand ports it reads, the configuration, the encoding check
and, for XFER, the transport's answer to its own call, and of nothing else: two states that agree on these, however they
differ otherwise, refuse, fault and complete alike, with the same response (R28). -/
def Obligations.ResponseDependsOnlyOnOwnInputs : Prop :=
  ∀ (s u : State) (c d : CommandPorts) (rs ru : List CommandPorts),
    s.pending = c :: rs → u.pending = d :: ru → c.cmd = d.cmd → s.config = u.config →
    (∀ i, decode c.cmd = .ok i → AgreeOnPortsRead i c d) →
    (∀ t, step s = .next t → ∃ v, step u = .next v ∧ (SameTransportAnswer s t u v → t.response = v.response)) ∧
    (∀ f, step s = .fault f → step u = .fault f) ∧
    (∀ r, step s = .refused r → step u = .refused r)

/-- After an error the next command behaves as it would have without the error, and the failed command is not retried (R127;
that the transport's answer is the same is a premise on the environment). -/
def Obligations.NextCommandUnaffectedByError : Prop :=
  ∀ (s t : State) (c d : CommandPorts) (rest : List CommandPorts) (k : ErrorKind),
    s.pending = c :: d :: rest → step s = .next t → t.response = some (.err k) →
    t.pending = d :: rest ∧
    (∀ v, step { s with pending := d :: rest } = .next v →
      ∃ v', step t = .next v' ∧
        (SameTransportAnswer { s with pending := d :: rest } v t v' → v'.response = v.response)) ∧
    (∀ f, step { s with pending := d :: rest } = .fault f → step t = .fault f) ∧
    (∀ q, step { s with pending := d :: rest } = .refused q → step t = .refused q)

/-! ## The history (R32, R49, R131, R145, R146) -/

/-- Every step keeps the invariant: the history is a row of whole blocks, one a command, each holding exactly the events and
the response its own command, ports, transport answer and the configuration determine; the response on the ports is the
last block's (R28, R32, R48, R49, R146; D5, D24), and the input ports still hold its command (the model's choice, log 4). -/
def Obligations.StepKeepsInvariant : Prop :=
  ∀ s t : State, s.Inv → step s = .next t → t.Inv

/-- The invariant holds right after reset. -/
def Obligations.ResetMeetsInvariant : Prop := State.reset.Inv

/-- A later command never changes an earlier response: the history before a step stands unchanged at the head of the history
after it (R145). -/
def Obligations.EarlierResponsesAreKept : Prop :=
  ∀ s t : State, step s = .next t →
    (∀ (n : Nat) (e : Event), s.history[n]? = some e → t.history[n]? = some e) ∧
    ∃ r, t.response = some r ∧ t.history.countP isRespEvent = s.history.countP isRespEvent + 1

/-- At most one transport call happens per command, an XFER's, and every `Xfer` event is followed at once by its answer (R49,
R112; "derived: from rule R48"). That the command just run is read from the input ports after the step is the model's choice
that they keep it (log 4), and that no `Diag` stands among the events is the spec's decision D22 (log 14). -/
def Obligations.AtMostOneCallPerCommand : Prop :=
  ∀ s t : State, step s = .next t →
    (∃ r, eventsAdded s t = [.cmd t.ports, .resp r]) ∨
    (∃ n out a r, eventsAdded s t = [.cmd t.ports, .xfer n out, .xferAns a, .resp r] ∧
      ∃ w cap ord, decode t.ports.cmd = .ok (.xfer w cap ord) ∧ ValidWidth w cap)

/-- No command emits a diagnostic message, whatever the configuration: of the events a step adds, none is `Diag` (R131,
D22). -/
def Obligations.NoCommandEmitsDiagnostic : Prop :=
  ∀ (s t : State) (m : DiagMessage), step s = .next t → .diag m ∉ eventsAdded s t

/-- The gate of the diagnostic port: no effect without the port, no effect below the threshold, delivery into the history
otherwise; a level equal to the threshold is delivered (R130; the last is "derived"). -/
def Obligations.DiagnosticGate : Prop :=
  ∀ (s : State) (m : DiagMessage) (threshold : Severity),
    (s.config.hasDiag = false → emitDiag m s = .next s) ∧
    (s.config.hasDiag = true → s.config.diagMinLevel = some threshold → m.level < threshold →
      emitDiag m s = .next s) ∧
    (s.config.hasDiag = true → s.config.diagMinLevel = some threshold → threshold ≤ m.level →
      emitDiag m s = .next { s with history := s.history ++ [.diag m] })

/-- After a command completes the response ports hold its response, the last event of the history, and the caller can read it
(R146; D24); when no response exists, reading it is a fault (R29; D26). -/
def Obligations.CurrentResponse : Prop :=
  (∀ s t : State, step s = .next t → ∃ r, t.readResponse = .ok r ∧ t.history.getLast? = some (.resp r)) ∧
  (∀ s : State, s.response = none → s.readResponse = .error .noCurrentResponse)

/-! ## Reset and runs (spec/70_reset_and_hazards.md) -/

/-- The reset values of R34: no response exists, the history is empty, and the block sets no TRN_MIN, TRN_MAX or
DIAG_MIN_LEVEL. -/
def Obligations.ResetValues : Prop :=
  State.reset.response = none ∧ State.reset.history = [] ∧ State.reset.config.trnMin = none ∧
  State.reset.config.trnMax = none ∧ State.reset.config.diagMinLevel = none

/-- Reset between commands: no response exists, the new run's history is empty, and the configuration inputs are unchanged
(R140, D26); a claim of the invariant holds again. -/
def Obligations.ResetKeepsConfiguration : Prop :=
  ∀ (s : State) (commands : List CommandPorts) (answers : List TransportAnswer),
    (s.resetRun commands answers).response = none ∧ (s.resetRun commands answers).history = [] ∧
    (s.resetRun commands answers).config = s.config ∧ (s.resetRun commands answers).Inv

/-- What the caller's side may do between steps (the table of R139, and R142). It may supply any value of a configuration input
that is not yet supplied, or of any input before the run's first command, and issue any command; each changes nothing else.
Once the bound is supplied TURNAROUND completes. Once a command has been accepted it has no move that changes a supplied value
or HAS_DIAG (R26, I17), and what it may do keeps the invariant (D14, D22, D24). The model's own, by log 10: that a value not
yet supplied may still be supplied in the middle of a run (inferred from R142; neither R139 nor R142 says it), that a new
run may be given new values, and that HAS_DIAG is set only before a run's first command. -/
def Obligations.CallerSuppliesConfigurationAndCommands : Prop :=
  ∀ (s : State) (c : CommandPorts) (b : Bool) (lo hi : BitVec 32) (level : Severity),
    (s.config.trnMin = none ∨ s.history = [] →
      s.supply (.trnMin lo) = some { s with config := { s.config with trnMin := some lo } }) ∧
    (s.config.trnMax = none ∨ s.history = [] →
      s.supply (.trnMax hi) = some { s with config := { s.config with trnMax := some hi } }) ∧
    (s.config.diagMinLevel = none ∨ s.history = [] →
      s.supplyDiagLevel level = some { s with config := { s.config with diagMinLevel := some level } }) ∧
    (s.history = [] → s.fixHasDiag b = some { s with config := { s.config with hasDiag := b } }) ∧
    s.issue c = { s with pending := s.pending ++ [c] } ∧
    ((s.config.trnMin = none ∧ s.config.trnMax = none) ∨ s.history = [] →
      ∃ t, s.supplyBound lo hi = some t ∧ t.config.trnMin = some lo ∧ t.config.trnMax = some hi ∧
        ∀ dir, ∃ u, exec (.turnaround dir) t = .next u) ∧
    (s.history ≠ [] →
      s.fixHasDiag b = none ∧
      (∀ v, s.config.trnMin = some v → s.supply (.trnMin lo) = none ∧ s.supplyBound lo hi = none) ∧
      (∀ v, s.config.trnMax = some v → s.supply (.trnMax hi) = none ∧ s.supplyBound lo hi = none) ∧
      ∀ l, s.config.diagMinLevel = some l → s.supplyDiagLevel level = none) ∧
    (s.Inv → (∀ item t, s.supply item = some t → t.Inv) ∧ (s.issue c).Inv)

/-- A run whose commands all decode, with the bound supplied, finishes, whatever the transport answers, with one response a
command (R147, R148; that the transport answers is the spec's decision D19, and that a run of no commands is finished is the
model's choice, log 18). -/
def Obligations.SuppliedRunFinishes : Prop :=
  ∀ s : State, (∀ c ∈ s.pending, ∃ i, decode c.cmd = .ok i) →
    (∃ lo, s.config.trnMin = some lo) → (∃ hi, s.config.trnMax = some hi) →
    (runOf s).ended = .finished ∧
    (runOf s).history.countP isRespEvent = s.history.countP isRespEvent + s.pending.length

/-- A run with a word that spells no command among its commands never finishes, its mark is kept, and no command from the
refused one on enters its history, so it holds fewer responses than the run has commands (R66, R148; D5, D23). -/
def Obligations.RefusedRunNeverFinishes : Prop :=
  ∀ (s : State) (before after : List CommandPorts) (c : CommandPorts) (e : DecodeError),
    s.pending = before ++ c :: after → decode c.cmd = .error e →
    (runOf s).ended ≠ .finished ∧
    (runOf s).history.countP isRespEvent ≤ s.history.countP isRespEvent + before.length ∧
    ((∀ b ∈ before, ∃ i, decode b.cmd = .ok i) → (∀ f, (runOf s).ended ≠ .faulted f) →
      (runOf s).ended = .refused (.reservedBitSet c.cmd))

/-- A run with a TURNAROUND among its commands while TRN_MIN or TRN_MAX is not supplied never finishes, and no command from
that one on enters its history; when the commands before it decode and are no TURNAROUND, the run ends in the fault that
names it (R143, R148; D5, D14, and D19 for the XFERs before it). -/
def Obligations.FaultingRunNeverFinishes : Prop :=
  ∀ (s : State) (before after : List CommandPorts) (c : CommandPorts) (dir : Direction),
    s.pending = before ++ c :: after → decode c.cmd = .ok (.turnaround dir) →
    (s.config.trnMin = none ∨ s.config.trnMax = none) →
    (runOf s).ended ≠ .finished ∧
    (runOf s).history.countP isRespEvent ≤ s.history.countP isRespEvent + before.length ∧
    ((∀ b ∈ before, ∃ i, decode b.cmd = .ok i ∧ ∀ d, i ≠ .turnaround d) →
      (runOf s).ended = .faulted (.turnaroundBoundNotSupplied (.turnaround dir)))

/-! ## The assembler (R74, R75) -/

/-- What a line of R74 assembles to decodes to the command the line names, with every reserved bit 0 and every operand port
the command does not read 0; a `.word` line puts its number on CMD, whatever it spells, with every operand port 0 (the syntax
is the spec's own, D28). -/
def Obligations.AssembledLinesDecode : Prop :=
  ∀ (w : Len) (cap : Capacity) (ord : ShiftOrder) (v : Word) (n : Len) (dir : Direction) (raw : CmdWord),
    (AsmLine.rawWord raw).assemble = { cmd := raw, opa := 0, ops := 0, opl := 0 } ∧
    (decode (AsmLine.pack w cap ord v).assemble.cmd = .ok (.pack w.toNat cap ord) ∧
      (AsmLine.pack w cap ord v).assemble.opa = v ∧ (AsmLine.pack w cap ord v).assemble.ops = 0 ∧
      (AsmLine.pack w cap ord v).assemble.opl = 0) ∧
    (decode (AsmLine.unpack w cap ord v n).assemble.cmd = .ok (.unpack true w.toNat cap ord) ∧
      (AsmLine.unpack w cap ord v n).assemble.opa = 0 ∧ (AsmLine.unpack w cap ord v n).assemble.ops = v ∧
      (AsmLine.unpack w cap ord v n).assemble.opl = n) ∧
    (decode (AsmLine.unpackNone w cap ord).assemble.cmd = .ok (.unpack false w.toNat cap ord) ∧
      (AsmLine.unpackNone w cap ord).assemble.opa = 0 ∧ (AsmLine.unpackNone w cap ord).assemble.ops = 0 ∧
      (AsmLine.unpackNone w cap ord).assemble.opl = 0) ∧
    (decode (AsmLine.turn dir v).assemble.cmd = .ok (.turnaround dir) ∧
      (AsmLine.turn dir v).assemble.opa = v ∧ (AsmLine.turn dir v).assemble.ops = 0 ∧
      (AsmLine.turn dir v).assemble.opl = 0) ∧
    (decode (AsmLine.xfer w cap ord v).assemble.cmd = .ok (.xfer w.toNat cap ord) ∧
      (AsmLine.xfer w cap ord v).assemble.opa = v ∧ (AsmLine.xfer w cap ord v).assemble.ops = 0 ∧
      (AsmLine.xfer w cap ord v).assemble.opl = 0)

/-- The text reader reads every line of R74 and R75, written with its mnemonic and its operands in the rule's order, as that
line, for all its operands; letter case does not matter, `;` starts a comment, and a line with nothing before its comment
assembles to nothing (R74, R75; D28). The writer's spelling (ports and counts hexadecimal, widths and lengths decimal,
capacities the tokens 8 and 32), the case of operands and the blank line are the model's (log 12). -/
def Obligations.ReaderReadsEveryWrittenLine : Prop :=
  (∀ a : AsmLine, readLine a.write = .line a) ∧
  ∀ text note : List Char,
    readLine (text.map lowerChar) = readLine text ∧ readLine (text ++ ';' :: note) = readLine text ∧
    ((∀ c ∈ text, isBlank c = true) → readLine (text ++ ';' :: note) = .nothing)

/-- A pseudo-instruction assembles to what its expansion assembles to (R75; D28). -/
def Obligations.PseudoInstructionsExpand : Prop :=
  ∀ a : AsmLine, a.assemble = a.expand.assemble
end

