-- ==== Sys2Proof/Laws/Assembler.lean ====
section
/-! SUPPORT. The small lemmas of the assembler's text: numbers are read back as written, letter case and comments, and one
lemma that says what `readLine` does with a mnemonic and its operands (spec/30_encoding.md R74, R75). -/

namespace Sys2Proof.Machine

theorem digitValue_digitChar (d : Nat) (h : d < 16) : digitValue (digitChar d) = some d := by
  interval_cases d <;> decide

/-- Reading digits goes on from the value read so far. -/
theorem readDigits_append (base : Nat) (xs ys : List Char) (acc : Nat) :
    readDigits base (xs ++ ys) acc = (readDigits base xs acc).bind (readDigits base ys) := by
  induction xs generalizing acc with
  | nil => rfl
  | cons c cs ih =>
    simp only [List.cons_append, readDigits]
    split
    · split
      · exact ih _
      · rfl
    · rfl

/-- Reading `n` written digits back gives the value below 16^n. -/
theorem readDigits_hexDigits (n v acc : Nat) :
    readDigits 16 (hexDigits n v) acc = some (16 ^ n * acc + v % 16 ^ n) := by
  induction n generalizing v with
  | zero => simp [hexDigits, readDigits, Nat.mod_one]
  | succ n ih =>
    have hd := digitValue_digitChar (v % 16) (Nat.mod_lt _ (by decide))
    have hm : v % 16 ^ (n + 1) = 16 * (v / 16 % 16 ^ n) + v % 16 := by
      rw [Nat.pow_succ', Nat.mod_mul]; omega
    simp only [hexDigits, readDigits_append, ih, Option.bind_some, readDigits, hd, hm,
      if_pos (Nat.mod_lt v (by decide : 0 < 16))]
    congr 1
    ring

theorem readNat_writeHex (v : Nat) (h : v < 2 ^ 32) : readNat (writeHex v) = some v := by
  have e := readDigits_hexDigits 8 v 0
  rw [Nat.mul_zero, Nat.zero_add, Nat.mod_eq_of_lt (show v < 16 ^ 8 from h)] at e
  simpa [writeHex, hexDigits, readNat] using e

theorem readPort_writeHex (n : Nat) (hn : n ≤ 32) (v : BitVec n) : readPort n (writeHex v.toNat) = some v := by
  have : v.toNat < 2 ^ 32 := v.isLt.trans_le (Nat.pow_le_pow_right (by decide) hn)
  simp [readPort, readNat_writeHex _ this, v.isLt]

theorem readPort_writeLen (v : Len) : readPort 6 (writeLen v) = some v := by
  revert v; decide

/-- Every signed count is read back, -2^31 included (D30). -/
theorem readCycles_writeCycles (v : Word) : readCycles (writeCycles v) = some v := by
  have hv := v.isLt
  rw [writeCycles]
  split
  · rename_i h
    have hn : (-v.toInt).toNat ≤ 2 ^ 31 := by have := @BitVec.le_toInt 32 v; omega
    simp only [readCycles, readNat_writeHex _ (hn.trans_lt (by decide)), if_pos hn]
    congr 1
    rw [Int.toNat_of_nonneg (by omega), Int.neg_neg, BitVec.ofInt_toInt]
  · rename_i h
    have hn : v.toNat < 2 ^ 31 := by rw [BitVec.toInt_eq_toNat_cond] at h; split at h <;> omega
    have e := readNat_writeHex v.toNat v.isLt
    simp only [writeHex] at e
    simpa [writeHex, readCycles, e] using hn

theorem lowerChar_lowerChar (c : Char) : lowerChar (lowerChar c) = lowerChar c := by
  unfold lowerChar
  split
  · rename_i h
    simp only [Bool.and_eq_true, decide_eq_true_eq] at h
    obtain ⟨a, b⟩ := h
    generalize c.toNat = n at a b
    interval_cases n <;> decide
  · rfl

theorem lowerChar_bne_semicolon (c : Char) : (lowerChar c != ';') = (c != ';') := by
  unfold lowerChar
  split
  · rename_i h
    simp only [Bool.and_eq_true, decide_eq_true_eq] at h
    obtain ⟨a, b⟩ := h
    have hc : c ≠ ';' := by rintro rfl; revert a; decide
    have : Char.ofNat (c.toNat + 32) ≠ ';' := by
      generalize c.toNat = n at a b
      interval_cases n <;> decide
    rw [bne_iff_ne.mpr hc, bne_iff_ne.mpr this]
  · rfl

theorem stripComment_map_lowerChar (l : List Char) : stripComment (l.map lowerChar) = (stripComment l).map lowerChar := by
  rw [stripComment, List.takeWhile_map]
  congr 2
  exact funext lowerChar_bne_semicolon

/-- What follows a `;` is not read (R74). -/
theorem stripComment_comment (l note : List Char) : stripComment (l ++ ';' :: note) = stripComment l := by
  induction l with
  | nil => rfl
  | cons c cs ih =>
    simp only [stripComment, List.cons_append, List.takeWhile_cons] at *
    split <;> simp_all

/-- A character that is no comma, no blank and no start of a comment, and is in lower case. -/
def plainChar (c : Char) : Bool := c != ';' && c != ',' && !isBlank c && lowerChar c == c

/-- A mnemonic or an operand as the writer writes it. -/
def PlainWord (l : List Char) : Prop := l ≠ [] ∧ ∀ c ∈ l, plainChar c = true

theorem trimBlanks_plain (l : List Char) (h : ∀ c ∈ l, isBlank c = false) : trimBlanks l = l := by
  have d : ∀ m : List Char, (∀ c ∈ m, isBlank c = false) → m.dropWhile isBlank = m := by
    intro m hm; cases m <;> simp_all
  rw [trimBlanks, d l h, d _ (by simpa using h), List.reverse_reverse]

/-- A text that neither begins nor ends with a blank is left alone. -/
theorem trimBlanks_ends (a z : Char) (l : List Char) (ha : isBlank a = false) (hz : isBlank z = false) :
    trimBlanks (a :: (l ++ [z])) = a :: (l ++ [z]) := by
  simp [trimBlanks, ha, hz]

theorem trimBlanks_blank_cons (l : List Char) : trimBlanks (' ' :: l) = trimBlanks l := by
  simp [trimBlanks, isBlank]

theorem splitCommas_append (x l : List Char) (h : ∀ c ∈ x, plainChar c = true) :
    splitCommas (x ++ ',' :: l) = x :: splitCommas l := by
  induction x with
  | nil => simp [splitCommas]
  | cons c cs ih =>
    have hc : c ≠ ',' := by have := h c (by simp); simp_all [plainChar]
    simp [splitCommas, hc, ih (fun d hd => h d (by simp [hd]))]

theorem splitCommas_plain (x : List Char) (h : ∀ c ∈ x, plainChar c = true) : splitCommas x = [x] := by
  induction x with
  | nil => simp [splitCommas]
  | cons c cs ih =>
    have hc : c ≠ ',' := by have := h c (by simp); simp_all [plainChar]
    simp [splitCommas, hc, ih (fun d hd => h d (by simp [hd]))]

theorem splitCommas_blank (l x : List Char) (xs : List (List Char)) (h : splitCommas l = x :: xs) :
    splitCommas (' ' :: l) = (' ' :: x) :: xs := by
  simp [splitCommas, h]

/-- Operands joined by commas are split into the same operands. -/
theorem splitCommas_joinOperands (ops : List (List Char)) (h0 : ops ≠ []) (h : ∀ x ∈ ops, PlainWord x) :
    (splitCommas (' ' :: joinOperands ops)).map trimBlanks = ops := by
  have nb : ∀ x ∈ ops, trimBlanks x = x := fun x hx => trimBlanks_plain x fun c hc => by
    have := (h x hx).2 c hc; simp_all [plainChar]
  induction ops with
  | nil => exact absurd rfl h0
  | cons x xs ih =>
    cases xs with
    | nil =>
      rw [joinOperands, splitCommas_blank _ _ _ (splitCommas_plain x (h x (by simp)).2)]
      simp [trimBlanks_blank_cons, nb]
    | cons y ys =>
      have i := ih (by simp) (fun z hz => h z (by simp [hz])) (fun z hz => nb z (by simp [hz]))
      rw [joinOperands, splitCommas_blank _ _ _ (splitCommas_append x _ (h x (by simp)).2)]
      rw [List.map_cons, i, trimBlanks_blank_cons, nb x (by simp)]

/-- A property of commas, blanks and every operand's characters holds of the joined operands' characters. -/
theorem joinOperands_mem (ops : List (List Char)) (P : Char → Prop) (hc : P ',') (hb : P ' ')
    (h : ∀ x ∈ ops, ∀ c ∈ x, P c) : ∀ c ∈ joinOperands ops, P c := by
  induction ops with
  | nil => simp [joinOperands]
  | cons x xs ih =>
    cases xs with
    | nil => simpa [joinOperands] using h
    | cons y ys =>
      have := ih (fun z hz => h z (by simp [hz]))
      intro c
      simp only [joinOperands, List.mem_append, List.mem_cons]
      rintro (hx | rfl | rfl | hj)
      · exact h x (by simp) c hx
      · exact hc
      · exact hb
      · exact this c hj

theorem joinOperands_last (ops : List (List Char)) (h0 : ops ≠ []) (h : ∀ x ∈ ops, PlainWord x) :
    ∃ l z, joinOperands ops = l ++ [z] ∧ isBlank z = false := by
  induction ops with
  | nil => exact absurd rfl h0
  | cons x xs ih =>
    cases xs with
    | nil =>
      obtain ⟨hx, hp⟩ := h x (by simp)
      refine ⟨x.dropLast, x.getLast hx, (List.dropLast_append_getLast hx).symm, ?_⟩
      have := hp _ (List.getLast_mem hx)
      simp_all [plainChar]
    | cons y ys =>
      obtain ⟨l, z, e, hz⟩ := ih (by simp) (fun z hz => h z (by simp [hz]))
      exact ⟨x ++ ',' :: ' ' :: l, z, by simp [joinOperands, e], hz⟩

/-- What `readLine` does with a mnemonic, a blank and operands between commas: it reads the operands of the mnemonic. -/
theorem readLine_written (m : List Char) (ops : List (List Char)) (hm : PlainWord m) (h0 : ops ≠ [])
    (h : ∀ x ∈ ops, PlainWord x) :
    readLine (m ++ ' ' :: joinOperands ops) = (readOperands m ops).elim .malformed .line := by
  obtain ⟨hm0, hmp⟩ := hm
  have all : ∀ c ∈ m ++ ' ' :: joinOperands ops, (c != ';') = true ∧ lowerChar c = c := by
    intro c hc
    simp only [List.mem_append, List.mem_cons] at hc
    rcases hc with hc | rfl | hc
    · have := hmp c hc; simp_all [plainChar]
    · decide
    · exact joinOperands_mem ops (fun c => (c != ';') = true ∧ lowerChar c = c) (by decide) (by decide)
        (fun x hx c hc => by have := (h x hx).2 c hc; simp_all [plainChar]) c hc
  have s : stripComment (m ++ ' ' :: joinOperands ops) = m ++ ' ' :: joinOperands ops :=
    List.takeWhile_eq_self_iff.mpr fun c hc => (all c hc).1
  have lo : (m ++ ' ' :: joinOperands ops).map lowerChar = m ++ ' ' :: joinOperands ops :=
    (List.map_congr_left fun c hc => (all c hc).2).trans (List.map_id' _)
  have nb : ∀ c ∈ m, (!isBlank c) = true := fun c hc => by have := hmp c hc; simp_all [plainChar]
  obtain ⟨a, m', rfl⟩ := List.exists_cons_of_ne_nil hm0
  obtain ⟨l, z, e, hz⟩ := joinOperands_last ops h0 h
  have t : trimBlanks (a :: m' ++ ' ' :: joinOperands ops) = a :: m' ++ ' ' :: joinOperands ops := by
    have := trimBlanks_ends a z (m' ++ ' ' :: l) (by simpa using nb a (by simp)) hz
    simpa [e] using this
  have tk : (a :: (m' ++ ' ' :: joinOperands ops)).takeWhile (fun d => !isBlank d) = a :: m' := by
    rw [← List.cons_append, List.takeWhile_append_of_pos nb]; simp [isBlank]
  have dr : (a :: (m' ++ ' ' :: joinOperands ops)).dropWhile (fun d => !isBlank d) = ' ' :: joinOperands ops := by
    rw [← List.cons_append, List.dropWhile_append_of_pos nb]; simp [isBlank]
  unfold readLine
  rw [s, lo, t]
  simp only [List.cons_append, tk, dr, splitCommas_joinOperands ops h0 h]
  cases readOperands (a :: m') ops <;> rfl

theorem plain_hexDigits (n v : Nat) : ∀ c ∈ hexDigits n v, plainChar c = true := by
  induction n generalizing v with
  | zero => simp [hexDigits]
  | succ n ih =>
    simp only [hexDigits, List.mem_append, List.mem_singleton]
    rintro c (h | rfl)
    · exact ih _ c h
    · have : v % 16 < 16 := Nat.mod_lt _ (by decide)
      generalize v % 16 = d at this
      interval_cases d <;> decide

theorem plain_writeHex (v : Nat) : PlainWord (writeHex v) := by
  refine ⟨by simp [writeHex], ?_⟩
  simp only [writeHex, List.mem_cons]
  rintro c (rfl | rfl | h)
  · decide
  · decide
  · exact plain_hexDigits 8 v c h

theorem plain_writeLen (v : Len) : ∀ c ∈ writeLen v, plainChar c = true := by
  have : ∀ v : Len, (writeLen v).all plainChar = true := by decide
  exact List.all_eq_true.mp (this v)

theorem plain_writeCycles (v : Word) : PlainWord (writeCycles v) := by
  rw [writeCycles]
  split
  · refine ⟨by simp, ?_⟩
    simp only [List.mem_cons]
    rintro c (rfl | h)
    · decide
    · exact (plain_writeHex _).2 c h
  · exact plain_writeHex _

theorem plain_mnemonic (a : AsmLine) : PlainWord a.mnemonic := by
  cases a <;> simp [AsmLine.mnemonic, PlainWord] <;> decide

theorem plain_writeOrd (o : ShiftOrder) : PlainWord (writeOrd o) := by cases o <;> simp [writeOrd, PlainWord] <;> decide

theorem plain_writeDir (o : Direction) : PlainWord (writeDir o) := by cases o <;> simp [writeDir, PlainWord] <;> decide

theorem plain_writeShape (w : Len) (cap : Capacity) (ord : ShiftOrder) : ∀ x ∈ writeShape w cap ord, PlainWord x := by
  simp only [writeShape, List.mem_cons, List.not_mem_nil, or_false]
  rintro x (rfl | rfl | rfl)
  · refine ⟨by simp, ?_⟩
    simp only [List.mem_cons]
    rintro c (rfl | rfl | h)
    · decide
    · decide
    · exact plain_writeLen w c h
  · cases cap <;> simp [writeCap, PlainWord] <;> decide
  · exact plain_writeOrd ord

theorem plain_len (n : Len) : PlainWord (['l', 'e', 'n', '='] ++ writeLen n) := by
  refine ⟨by simp, ?_⟩
  simp only [List.mem_append]
  rintro c (h | h)
  · have : ['l', 'e', 'n', '='].all plainChar = true := by decide
    exact List.all_eq_true.mp this c h
  · exact plain_writeLen n c h

theorem plain_operands (a : AsmLine) : a.operands ≠ [] ∧ ∀ x ∈ a.operands, PlainWord x := by
  refine ⟨by cases a <;> simp [AsmLine.operands, writeShape], ?_⟩
  cases a <;>
    simp only [AsmLine.operands, List.mem_append, List.mem_cons, List.not_mem_nil, or_false] <;>
    intro x hx
  case unpackNone => rcases hx with h | rfl; exact plain_writeShape _ _ _ x h; simp [PlainWord]; decide
  all_goals
    rcases hx with h | rfl | rfl <;> first
    | exact plain_writeShape _ _ _ x h
    | (subst h; first | exact plain_writeOrd _ | exact plain_writeDir _)
    | exact plain_writeHex _
    | exact plain_writeCycles _
    | exact plain_len _

theorem readWidth_written (w : Len) : readWidth ('w' :: '=' :: writeLen w) = some w := by
  simp [readWidth, afterKey, readPort_writeLen]

theorem readLen_written (w : Len) : readLen ('l' :: 'e' :: 'n' :: '=' :: writeLen w) = some w := by
  simp [readLen, afterKey, readPort_writeLen]

theorem readCap_written (c : Capacity) : readCap ('c' :: 'a' :: 'p' :: '=' :: writeCap c) = some c := by
  cases c <;> decide

theorem readOrd_written (o : ShiftOrder) : readOrd (writeOrd o) = some o := by cases o <;> decide

theorem readDir_written (o : Direction) : readDir (writeDir o) = some o := by cases o <;> decide

theorem readOperands_written (a : AsmLine) : readOperands a.mnemonic a.operands = some a := by
  cases a <;>
    simp [readOperands, AsmLine.mnemonic, AsmLine.operands, writeShape, readWidth_written, readLen_written,
      readCap_written, readOrd_written, readDir_written, readPort_writeHex, readCycles_writeCycles]

end Sys2Proof.Machine
end

