-- ==== Sys2Proof/Laws/Bits.lean ====
section
/-! SUPPORT. The two bit-order loops said lane by lane (spec/00_scope.md R12, spec/40_pack_unpack.md R80). -/

namespace Sys2Proof.Machine

theorem idx_lt (i w : Nat) (ord : ShiftOrder) (h : i < w) : idx i w ord < w := by
  cases ord <;> (simp only [idx]; omega)

/-- `idx` is its own inverse on [0, w) (R12). -/
theorem idx_idx (i w : Nat) (ord : ShiftOrder) (h : i < w) : idx (idx i w ord) w ord = i := by
  cases ord with
  | lsbFirst => rfl
  | msbFirst =>
    simp only [idx]
    omega

theorem one_shift_bit (n i : Nat) (hn : n < 32) : (1#32 <<< n).getLsbD i = decide (i = n) := by
  by_cases hi : i = n
  · subst hi
    simp [hn]
  · by_cases hlt : i < n
    · simp [hlt, hi]
    · have : i - n ≠ 0 := by omega
      simp [hi, this]

/-- Writing one lane writes that lane and no other (R80). -/
theorem setLane_lane (s : Lanes) (k j : Nat) (b : Bool) (hk : k < 32) :
    (setLane s k b).getLsbD j = if j = k then b else s.getLsbD j := by
  have one_at := one_shift_bit k j hk
  unfold setLane
  cases b with
  | true =>
    rw [if_pos rfl, BitVec.getLsbD_or, one_at]
    by_cases hj : j = k <;> simp [hj]
  | false =>
    rw [if_neg Bool.false_ne_true, BitVec.getLsbD_and, BitVec.getLsbD_not, one_at]
    by_cases hj : j = k
    · simp [hj]
    · by_cases h32 : j < 32
      · simp [hj, h32]
      · simp [hj, BitVec.getLsbD_of_ge _ _ (Nat.le_of_not_lt h32)]

/-- After `n` rounds, exactly the lanes `idx(i, w, ord)` with i < n are written (R80). -/
theorem packRounds_lane (v : Word) (w : Nat) (ord : ShiftOrder) (hw : w ≤ 32) (n : Nat) (hn : n ≤ w) (k : Nat) :
    (packRounds v w ord n).getLsbD k = (decide (k < w ∧ idx k w ord < n) && v.getLsbD (idx k w ord)) := by
  induction n with
  | zero => simp [packRounds]
  | succ n ih =>
    have hnw : n < w := hn
    have hlane := idx_lt n w ord hnw
    rw [packRounds, setLane_lane _ _ _ _ (by omega), ih (by omega)]
    by_cases hk : k = idx n w ord
    · subst hk
      simp [idx_idx n w ord hnw, hlane]
    · have hne : k < w → idx k w ord ≠ n := fun hkw e => hk (by rw [← e, idx_idx k w ord hkw])
      rw [if_neg hk]
      congr 1
      by_cases hkw : k < w
      · have := hne hkw
        simp [hkw]
        omega
      · simp [hkw]

/-- `packseq` carries word bit `idx(k, w, ord)` on lane k < w, and 0 above (R80). -/
theorem packseq_sequenceOf (v : Word) (w : Nat) (ord : ShiftOrder) (hw : w ≤ 32) :
    SequenceOf v w ord (packseq v w ord) := by
  intro k
  rw [packseq, packRounds_lane v w ord hw w (Nat.le_refl w)]
  by_cases hk : k < w
  · simp [hk, idx_lt k w ord hk]
  · simp [hk]

/-- After `n` rounds, exactly the bits below n are read (R80). -/
theorem unpackRounds_bit (s : Lanes) (w : Nat) (ord : ShiftOrder) (hw : w ≤ 32) (n : Nat) (hn : n ≤ w) (i : Nat) :
    (unpackRounds s w ord n).getLsbD i = (decide (i < n) && s.getLsbD (idx i w ord)) := by
  induction n with
  | zero => simp [unpackRounds]
  | succ n ih =>
    have hbit := one_shift_bit n i (by omega)
    have ih := ih (by omega)
    rw [unpackRounds]
    by_cases hi : i = n
    · subst hi
      split <;> simp_all
    · have hiff : decide (i < n + 1) = decide (i < n) := by
        simp only [decide_eq_decide]
        omega
      rw [hiff]
      split <;> simp_all

/-- `unpackval` carries sequence element `idx(i, w, ord)` on bit i < w, and 0 above (R80). -/
theorem unpackval_wordOf (s : Lanes) (w : Nat) (ord : ShiftOrder) (hw : w ≤ 32) : WordOf s w ord (unpackval s w ord) := by
  intro i
  rw [unpackval, unpackRounds_bit s w ord hw w (Nat.le_refl w)]

/-- At most one port value is the sequence of a word. -/
theorem SequenceOf.unique {v : Word} {w : Nat} {ord : ShiftOrder} {a b : Lanes} (ha : SequenceOf v w ord a)
    (hb : SequenceOf v w ord b) : a = b :=
  BitVec.eq_of_getLsbD_eq fun i _ => by rw [ha i, hb i]

/-- At most one word is the word of a sequence. -/
theorem WordOf.unique {s : Lanes} {w : Nat} {ord : ShiftOrder} {a b : Word} (ha : WordOf s w ord a)
    (hb : WordOf s w ord b) : a = b :=
  BitVec.eq_of_getLsbD_eq fun i _ => by rw [ha i, hb i]

theorem lowBits_bit (v : Word) (w i : Nat) : (lowBits v w).getLsbD i = (decide (i < w) && v.getLsbD i) := by
  by_cases h : i < 32
  · rw [lowBits, BitVec.getLsbD_ofNat, Nat.testBit_mod_two_pow, decide_eq_true h, Bool.true_and]
    rfl
  · simp [BitVec.getLsbD_of_ge _ _ (Nat.le_of_not_lt h)]

end Sys2Proof.Machine
end

