-- ==== Sys2Proof/Laws/State.lean ====
section
/-! SUPPORT. One lemma per field per update of State, so that no proof unfolds a record update. -/

namespace Sys2Proof.Machine

/-! ### State.record -/

@[simp] theorem State.record_config (s : State) (e : Event) : (s.record e).config = s.config := rfl
@[simp] theorem State.record_ports (s : State) (e : Event) : (s.record e).ports = s.ports := rfl
@[simp] theorem State.record_pending (s : State) (e : Event) : (s.record e).pending = s.pending := rfl
@[simp] theorem State.record_answers (s : State) (e : Event) : (s.record e).answers = s.answers := rfl
@[simp] theorem State.record_draws (s : State) (e : Event) : (s.record e).draws = s.draws := rfl
@[simp] theorem State.record_response (s : State) (e : Event) : (s.record e).response = s.response := rfl
@[simp] theorem State.record_history (s : State) (e : Event) : (s.record e).history = s.history ++ [e] := rfl

/-! ### State.present -/

@[simp] theorem State.present_config (s : State) (r : Response) : (s.present r).config = s.config := rfl
@[simp] theorem State.present_ports (s : State) (r : Response) : (s.present r).ports = s.ports := rfl
@[simp] theorem State.present_pending (s : State) (r : Response) : (s.present r).pending = s.pending := rfl
@[simp] theorem State.present_answers (s : State) (r : Response) : (s.present r).answers = s.answers := rfl
@[simp] theorem State.present_draws (s : State) (r : Response) : (s.present r).draws = s.draws := rfl
@[simp] theorem State.present_response (s : State) (r : Response) : (s.present r).response = some r := rfl
@[simp] theorem State.present_history (s : State) (r : Response) : (s.present r).history = s.history := rfl

/-! ### State.accept -/

@[simp] theorem State.accept_config (s : State) (c : CommandPorts) (rest : List CommandPorts) : (s.accept c rest).config = s.config := rfl
@[simp] theorem State.accept_ports (s : State) (c : CommandPorts) (rest : List CommandPorts) : (s.accept c rest).ports = c := rfl
@[simp] theorem State.accept_pending (s : State) (c : CommandPorts) (rest : List CommandPorts) : (s.accept c rest).pending = rest := rfl
@[simp] theorem State.accept_answers (s : State) (c : CommandPorts) (rest : List CommandPorts) : (s.accept c rest).answers = s.answers := rfl
@[simp] theorem State.accept_draws (s : State) (c : CommandPorts) (rest : List CommandPorts) : (s.accept c rest).draws = s.draws := rfl
@[simp] theorem State.accept_response (s : State) (c : CommandPorts) (rest : List CommandPorts) : (s.accept c rest).response = none := rfl
@[simp] theorem State.accept_history (s : State) (c : CommandPorts) (rest : List CommandPorts) : (s.accept c rest).history = s.history ++ [.cmd c] := rfl

/-! ### State.issue -/

@[simp] theorem State.issue_config (s : State) (c : CommandPorts) : (s.issue c).config = s.config := rfl
@[simp] theorem State.issue_ports (s : State) (c : CommandPorts) : (s.issue c).ports = s.ports := rfl
@[simp] theorem State.issue_pending (s : State) (c : CommandPorts) : (s.issue c).pending = s.pending ++ [c] := rfl
@[simp] theorem State.issue_answers (s : State) (c : CommandPorts) : (s.issue c).answers = s.answers := rfl
@[simp] theorem State.issue_draws (s : State) (c : CommandPorts) : (s.issue c).draws = s.draws := rfl
@[simp] theorem State.issue_response (s : State) (c : CommandPorts) : (s.issue c).response = s.response := rfl
@[simp] theorem State.issue_history (s : State) (c : CommandPorts) : (s.issue c).history = s.history := rfl

/-! ### State.resetRun -/

@[simp] theorem State.resetRun_config (s : State) (cs : List CommandPorts) (as : List TransportAnswer) : (s.resetRun cs as).config = s.config := rfl
@[simp] theorem State.resetRun_ports (s : State) (cs : List CommandPorts) (as : List TransportAnswer) : (s.resetRun cs as).ports = State.reset.ports := rfl
@[simp] theorem State.resetRun_pending (s : State) (cs : List CommandPorts) (as : List TransportAnswer) : (s.resetRun cs as).pending = cs := rfl
@[simp] theorem State.resetRun_answers (s : State) (cs : List CommandPorts) (as : List TransportAnswer) : (s.resetRun cs as).answers = as := rfl
@[simp] theorem State.resetRun_draws (s : State) (cs : List CommandPorts) (as : List TransportAnswer) : (s.resetRun cs as).draws = s.draws := rfl
@[simp] theorem State.resetRun_response (s : State) (cs : List CommandPorts) (as : List TransportAnswer) : (s.resetRun cs as).response = none := rfl
@[simp] theorem State.resetRun_history (s : State) (cs : List CommandPorts) (as : List TransportAnswer) : (s.resetRun cs as).history = [] := rfl

/-! ### State.supply -/

/-- Everything a supply does: the one input is set and nothing else changes, and it is a move only before the run's first
command or for a value not yet supplied (R26, R139, R142). -/
theorem State.supply_eq_some_iff (s t : State) (item : ConfigItem) :
    s.supply item = some t ↔
      (s.history = [] ∨ item.suppliedIn s.config = false) ∧ t = { s with config := item.setIn s.config } := by
  unfold State.supply
  split
  · rename_i h
    exact ⟨fun e => ⟨h, (Option.some.inj e).symm⟩, fun e => congrArg some e.2.symm⟩
  · rename_i h
    exact ⟨nofun, fun e => absurd e.1 h⟩

/-! ### State.dropAnswer -/

theorem State.dropAnswer_scripted (s : State) (a : TransportAnswer) (rest : List TransportAnswer)
    (h : s.answers = a :: rest) : s.dropAnswer = { s with answers := rest } := by
  simp [State.dropAnswer, h]

theorem State.dropAnswer_free (s : State) (h : s.answers = []) : s.dropAnswer = { s with draws := s.draws + 1 } := by
  simp [State.dropAnswer, h]

@[simp] theorem State.dropAnswer_config (s : State) : s.dropAnswer.config = s.config := by
  unfold State.dropAnswer
  split <;> rfl
@[simp] theorem State.dropAnswer_ports (s : State) : s.dropAnswer.ports = s.ports := by
  unfold State.dropAnswer
  split <;> rfl
@[simp] theorem State.dropAnswer_pending (s : State) : s.dropAnswer.pending = s.pending := by
  unfold State.dropAnswer
  split <;> rfl
@[simp] theorem State.dropAnswer_answers (s : State) : s.dropAnswer.answers = s.answers.tail := by
  unfold State.dropAnswer
  split <;> simp_all
@[simp] theorem State.dropAnswer_draws (s : State) :
    s.dropAnswer.draws = if s.answers = [] then s.draws + 1 else s.draws := by
  unfold State.dropAnswer
  split <;> simp_all
@[simp] theorem State.dropAnswer_response (s : State) : s.dropAnswer.response = s.response := by
  unfold State.dropAnswer
  split <;> rfl
@[simp] theorem State.dropAnswer_history (s : State) : s.dropAnswer.history = s.history := by
  unfold State.dropAnswer
  split <;> rfl

/-! ### State.reset -/

@[simp] theorem State.reset_config : State.reset.config = Configuration.notSupplied := rfl
@[simp] theorem State.reset_ports : State.reset.ports = { cmd := 0, opa := 0, ops := 0, opl := 0 } := rfl
@[simp] theorem State.reset_pending : State.reset.pending = [] := rfl
@[simp] theorem State.reset_answers : State.reset.answers = [] := rfl
@[simp] theorem State.reset_draws : State.reset.draws = 0 := rfl
@[simp] theorem State.reset_response : State.reset.response = none := rfl
@[simp] theorem State.reset_history : State.reset.history = [] := rfl

end Sys2Proof.Machine
end

