-- ==== Sys2Proof/Laws/Ops.lean ====
section
/-! SUPPORT. One lemma per shared operation, which says all it can do. -/

namespace Sys2Proof.Machine

/-- A width check passes exactly on the valid widths (R81). -/
theorem widthFits_iff (w : Int) (cap : Capacity) : widthFits w cap = true ↔ ValidWidth w cap := by
  simp [widthFits, ValidWidth]

theorem capBits_le (cap : Capacity) : capBits cap ≤ 32 := by cases cap <;> decide

theorem widthFits_false (w : Int) (cap : Capacity) (h : ¬ ValidWidth w cap) : widthFits w cap = false :=
  Bool.eq_false_iff.mpr fun e => h ((widthFits_iff w cap).mp e)

/-- A valid width is at most 32. -/
theorem ValidWidth.toNat_le {w : Int} {cap : Capacity} (h : ValidWidth w cap) : w.toNat ≤ 32 := by
  have := capBits_le cap
  omega

/-- The bound check passes exactly inside the inclusive range (R101). -/
theorem cyclesInBound_iff (cycles : Int) (lo hi : BitVec 32) :
    cyclesInBound cycles lo hi = true ↔ lo.toInt ≤ cycles ∧ cycles ≤ hi.toInt := by
  by_cases hlo : cycles < lo.toInt
  · simp [cyclesInBound, sint32, hlo]
  · by_cases hhi : hi.toInt < cycles
    · simp [cyclesInBound, sint32, hhi]
    · simp [cyclesInBound, sint32, hlo, hhi, not_lt.mp hlo, not_lt.mp hhi]

/-- `emit Diag(level, msg)` does one of these and no more (R130). -/
theorem emitDiag_cases (m : DiagMessage) (s : State) :
    (s.config.hasDiag = false ∧ emitDiag m s = .next s) ∨
    (s.config.hasDiag = true ∧ s.config.diagMinLevel = none ∧ emitDiag m s = .fault .diagLevelNotSupplied) ∨
    (∃ t, s.config.hasDiag = true ∧ s.config.diagMinLevel = some t ∧
      ((m.level < t ∧ emitDiag m s = .next s) ∨ (t ≤ m.level ∧ emitDiag m s = .next (s.record (.diag m))))) := by
  unfold emitDiag
  cases hd : s.config.hasDiag with
  | false => simp
  | true =>
    cases hl : s.config.diagMinLevel with
    | none => simp
    | some t =>
      by_cases h : m.level < t
      · simp [h]
      · simp [h, not_lt.mp h]

/-! ### State.completed -/

@[simp] theorem State.completed_config (s : State) (r : Response) : (s.completed r).config = s.config := rfl
@[simp] theorem State.completed_ports (s : State) (r : Response) : (s.completed r).ports = s.ports := rfl
@[simp] theorem State.completed_pending (s : State) (r : Response) : (s.completed r).pending = s.pending := rfl
@[simp] theorem State.completed_answers (s : State) (r : Response) : (s.completed r).answers = s.answers := rfl
@[simp] theorem State.completed_draws (s : State) (r : Response) : (s.completed r).draws = s.draws := rfl
@[simp] theorem State.completed_response (s : State) (r : Response) : (s.completed r).response = some r := rfl
@[simp] theorem State.completed_history (s : State) (r : Response) :
    (s.completed r).history = s.history ++ [.resp r] := rfl

/-- A command completes by putting its response on the ports and in the history, and by nothing else (R24, R32, R131). -/
@[simp] theorem complete_eq (i : Instr) (r : Response) (s : State) :
    complete i r s = .next (s.completed r) := rfl

@[simp] theorem respondOk_eq (i : Instr) (f : OkFields) (s : State) :
    respondOk i f s = .next (s.completed (.ok f)) := rfl

/-- An error has no effect but its response (R120, R126). -/
@[simp] theorem raiseError_eq (i : Instr) (k : ErrorKind) (s : State) :
    raiseError i k s = .next (s.completed (.err k)) := rfl

theorem nextAnswer_scripted (s : State) (a : TransportAnswer) (rest : List TransportAnswer) (h : s.answers = a :: rest) :
    s.nextAnswer = a := by
  simp [State.nextAnswer, h]

/-- The answer of a transport call is the answer its `XferAns` event records (R112). -/
theorem transfer_history (w : Nat) (out : Lanes) (s : State) :
    (transfer w out s).2.history = s.history ++ [.xfer (BitVec.ofNat 6 w) out, .xferAns (transfer w out s).1] := by
  simp [transfer]

/-- Completing after a call (R110, R112). -/
theorem transfer_completed (w : Nat) (out : Lanes) (s : State) (r : Response) :
    (transfer w out s).2.completed r = s.completedAfterCall (BitVec.ofNat 6 w) out (transfer w out s).1 r := by
  unfold State.completed State.completedAfterCall transfer
  cases h : s.answers <;> simp [State.dropAnswer, State.record, h]

theorem transfer_scripted (w : Nat) (out : Lanes) (s : State) (a : TransportAnswer) (rest : List TransportAnswer)
    (h : s.answers = a :: rest) : (transfer w out s).1 = a := by
  simp [transfer, State.nextAnswer, h]

@[simp] theorem transfer_config (w : Nat) (out : Lanes) (s : State) : (transfer w out s).2.config = s.config := by
  simp [transfer]

@[simp] theorem transfer_ports (w : Nat) (out : Lanes) (s : State) : (transfer w out s).2.ports = s.ports := by
  simp [transfer]

@[simp] theorem transfer_pending (w : Nat) (out : Lanes) (s : State) : (transfer w out s).2.pending = s.pending := by
  simp [transfer]

@[simp] theorem transfer_answers (w : Nat) (out : Lanes) (s : State) :
    (transfer w out s).2.answers = s.answers.tail := by
  simp [transfer]

@[simp] theorem transfer_draws (w : Nat) (out : Lanes) (s : State) :
    (transfer w out s).2.draws = if s.answers = [] then s.draws + 1 else s.draws := by
  unfold transfer
  rw [State.record_draws, State.dropAnswer_draws]
  rfl

end Sys2Proof.Machine
end

