-- ==== Sys2Proof/Laws/Exec.lean ====
section
/-! SUPPORT. One inversion lemma per meaning: what a command answers, said once; later proofs cite these. -/

namespace Sys2Proof.Machine

/-- PACK completes in every state (R83). -/
theorem execPack_cases (w : Int) (cap : Capacity) (ord : ShiftOrder) (s : State) :
    ∃ r, execPack w cap ord s = .next (s.completed r) ∧ PackAnswers w cap ord s.ports.opa r := by
  by_cases h : ValidWidth w cap
  · refine ⟨.ok { seq := packseq s.ports.opa w.toNat ord, slen := BitVec.ofInt 6 w }, ?_, ?_⟩
    · simp [execPack, (widthFits_iff w cap).mpr h, wordOperand]
    · have hslen : BitVec.ofInt 6 w = BitVec.ofNat 6 w.toNat := by
        rw [← BitVec.ofInt_natCast, Int.toNat_of_nonneg h.1]
      exact ⟨fun _ => ⟨_, packseq_sequenceOf _ _ _ h.toNat_le, by rw [hslen]⟩, fun n => absurd h n⟩
  · refine ⟨.err .invalidWidth, ?_, ?_⟩
    · simp [execPack, widthFits_false w cap h]
    · exact ⟨fun v => absurd v h, fun _ => rfl⟩

/-- UNPACK completes in every state (R90). -/
theorem execUnpack_cases (present : Bool) (w : Int) (cap : Capacity) (ord : ShiftOrder) (s : State) :
    ∃ r, execUnpack present w cap ord s = .next (s.completed r) ∧
      UnpackAnswers present w cap ord s.ports.ops s.ports.opl r := by
  cases present with
  | false =>
    exact ⟨.err .nullInput, by simp [execUnpack], by simp [UnpackAnswers]⟩
  | true =>
    by_cases h : ValidWidth w cap
    · by_cases hl : w ≤ (s.ports.opl.toNat : Int)
      · refine ⟨.ok { res := unpackval s.ports.ops w.toNat ord }, ?_, ?_⟩
        · simp [execUnpack, (widthFits_iff w cap).mpr h, lengthOperand, not_lt.mpr hl, sequenceOperand]
        · exact ⟨fun e => absurd e (by decide), fun _ _ _ => ⟨_, unpackval_wordOf _ _ _ h.toNat_le, rfl⟩,
            fun _ n => absurd h n, fun _ n => absurd hl (not_le.mpr n)⟩
      · refine ⟨.err .invalidWidth, ?_, ?_⟩
        · simp [execUnpack, (widthFits_iff w cap).mpr h, lengthOperand, not_le.mp hl]
        · exact ⟨fun e => absurd e (by decide), fun _ _ n => absurd n hl, fun _ _ => rfl, fun _ _ => rfl⟩
    · refine ⟨.err .invalidWidth, ?_, ?_⟩
      · simp [execUnpack, widthFits_false w cap h]
      · exact ⟨fun e => absurd e (by decide), fun _ v => absurd v h, fun _ _ => rfl, fun _ _ => rfl⟩

/-- TURNAROUND completes when a bound is supplied, and faults otherwise (R100, R143). -/
theorem execTurnaround_cases (dir : Direction) (s : State) :
    (∃ r, execTurnaround dir s = .next (s.completed r) ∧ TurnaroundAnswers s.config dir s.ports.opa r) ∨
    ((s.config.trnMin = none ∨ s.config.trnMax = none) ∧
      execTurnaround dir s = .fault (.turnaroundBoundNotSupplied (.turnaround dir))) := by
  unfold execTurnaround
  cases hlo : s.config.trnMin with
  | none => simp
  | some lo =>
    cases hhi : s.config.trnMax with
    | none => simp
    | some hi =>
      refine Or.inl ?_
      by_cases h : lo.toInt ≤ s.ports.opa.toInt ∧ s.ports.opa.toInt ≤ hi.toInt
      · have hin : cyclesInBound (cyclesOperand s) lo hi = true := (cyclesInBound_iff _ _ _).mpr h
        refine ⟨.ok { res := s.ports.opa, diro := dir.bit }, by simp [hin], lo, hi, hlo, hhi, ?_⟩
        refine ⟨fun _ => by cases dir <;> rfl, fun n => ?_⟩
        omega
      · have hout : cyclesInBound (cyclesOperand s) lo hi = false :=
          Bool.eq_false_iff.mpr fun e => h ((cyclesInBound_iff _ _ _).mp e)
        refine ⟨.err .invalidTurnaroundCycles, by simp [hout], lo, hi, hlo, hhi, ?_⟩
        exact ⟨fun v => absurd v h, fun _ => rfl⟩

/-- XFER with an invalid width completes without a call (R111). -/
theorem execXfer_invalid (w : Int) (cap : Capacity) (ord : ShiftOrder) (s : State) (h : ¬ ValidWidth w cap) :
    execXfer w cap ord s = .next (s.completed (.err .invalidWidth)) := by
  simp [execXfer, widthFits_false w cap h]

theorem xferResponse_answers (ans : TransportAnswer) (w : Nat) (ord : ShiftOrder) (hw : w ≤ 32) :
    XferAnswers w ord ans (xferResponse ans w ord) := by
  cases ans with
  | fail e => rfl
  | seq inc => exact ⟨_, unpackval_wordOf _ _ _ hw, rfl⟩

/-- XFER with a valid width completes in every state, after exactly one call (R110, R112). -/
theorem execXfer_valid (w : Int) (cap : Capacity) (ord : ShiftOrder) (s : State) (h : ValidWidth w cap) :
    ∃ out r, SequenceOf s.ports.opa w.toNat ord out ∧ XferAnswers w.toNat ord (transfer w.toNat out s).1 r ∧
      execXfer w cap ord s =
        .next (s.completedAfterCall (BitVec.ofNat 6 w.toNat) out (transfer w.toNat out s).1 r) := by
  refine ⟨packseq s.ports.opa w.toNat ord, _, packseq_sequenceOf _ _ _ h.toNat_le,
    xferResponse_answers _ _ _ h.toNat_le, ?_⟩
  simp [execXfer, (widthFits_iff w cap).mpr h, wordOperand, transfer_completed]

/-- Every next state of `exec`: a command completed without a call, with the response its rule gives, or a valid XFER
completed after its one call. -/
theorem exec_next_cases {i : Instr} {s t : State} (h : exec i s = .next t) :
    (∃ w cap ord r, i = .pack w cap ord ∧ PackAnswers w cap ord s.ports.opa r ∧ t = s.completed r) ∨
    (∃ p w cap ord r, i = .unpack p w cap ord ∧ UnpackAnswers p w cap ord s.ports.ops s.ports.opl r ∧ t = s.completed r) ∨
    (∃ dir r, i = .turnaround dir ∧ TurnaroundAnswers s.config dir s.ports.opa r ∧ t = s.completed r) ∨
    (∃ w cap ord, i = .xfer w cap ord ∧ ¬ ValidWidth w cap ∧ t = s.completed (.err .invalidWidth)) ∨
    (∃ w cap ord out r, i = .xfer w cap ord ∧ ValidWidth w cap ∧ SequenceOf s.ports.opa w.toNat ord out ∧
      XferAnswers w.toNat ord (transfer w.toNat out s).1 r ∧
      t = s.completedAfterCall (BitVec.ofNat 6 w.toNat) out (transfer w.toNat out s).1 r) := by
  cases i with
  | pack w cap ord =>
    obtain ⟨r, he, ha⟩ := execPack_cases w cap ord s
    exact Or.inl ⟨w, cap, ord, r, rfl, ha, Host.Outcome.next.inj (h.symm.trans he)⟩
  | unpack p w cap ord =>
    obtain ⟨r, he, ha⟩ := execUnpack_cases p w cap ord s
    exact Or.inr (Or.inl ⟨p, w, cap, ord, r, rfl, ha, Host.Outcome.next.inj (h.symm.trans he)⟩)
  | turnaround dir =>
    obtain ⟨r, he, ha⟩ | ⟨-, he⟩ := execTurnaround_cases dir s
    · exact Or.inr (Or.inr (Or.inl ⟨dir, r, rfl, ha, Host.Outcome.next.inj (h.symm.trans he)⟩))
    · cases h.symm.trans he
  | xfer w cap ord =>
    by_cases hv : ValidWidth w cap
    · obtain ⟨out, r, ho, ha, he⟩ := execXfer_valid w cap ord s hv
      exact Or.inr (Or.inr (Or.inr (Or.inr ⟨w, cap, ord, out, r, rfl, hv, ho, ha, Host.Outcome.next.inj (h.symm.trans he)⟩)))
    · have he := execXfer_invalid w cap ord s hv
      exact Or.inr (Or.inr (Or.inr (Or.inl ⟨w, cap, ord, rfl, hv, Host.Outcome.next.inj (h.symm.trans he)⟩)))

end Sys2Proof.Machine
end

