-- ==== Sys2Proof/Laws/PerInstr.lean ====
section
/-! SUPPORT. Per-instruction families (LAWS.json): the encoding of a command lies in the command's own row of the opcode
map (spec/30_encoding.md R69). -/

namespace Sys2Proof.Laws.EncodeInOwnRow

/-- The row of the command's opcode selects the command's word. -/
def Statement (i : Instr) : Prop := ∃ r ∈ opcodeMap, r.op = i.opcode ∧ r.selects (encode i) = true

theorem pack (w : Int) (cap : Capacity) (ord : ShiftOrder) : Statement (.pack w cap ord) := by
  refine ⟨⟨.pack, 0x0000#16, 0xFC03#16⟩, by decide, rfl, ?_⟩
  simp only [encode, encodeB]
  generalize BitVec.ofInt 6 w = f
  revert f cap ord
  rintro (_ | _) (_ | _) <;> decide

theorem unpack (present : Bool) (w : Int) (cap : Capacity) (ord : ShiftOrder) :
    Statement (.unpack present w cap ord) := by
  refine ⟨⟨.unpack, 0x0001#16, 0xF803#16⟩, by decide, rfl, ?_⟩
  simp only [encode, encodeB]
  generalize BitVec.ofInt 6 w = f
  revert f cap ord present
  rintro (_ | _) (_ | _) (_ | _) <;> decide

theorem turnaround (dir : Direction) : Statement (.turnaround dir) := by
  refine ⟨⟨.turnaround, 0x0002#16, 0xFFFB#16⟩, by decide, rfl, ?_⟩
  cases dir <;> decide

theorem xfer (w : Int) (cap : Capacity) (ord : ShiftOrder) : Statement (.xfer w cap ord) := by
  refine ⟨⟨.xfer, 0x0003#16, 0xFC03#16⟩, by decide, rfl, ?_⟩
  simp only [encode, encodeB]
  generalize BitVec.ofInt 6 w = f
  revert f cap ord
  rintro (_ | _) (_ | _) <;> decide

end Sys2Proof.Laws.EncodeInOwnRow
end

