-- ==== Sys2Proof/Laws/Step.lean ====
section
/-! SUPPORT. What a step can do (spec/10_state.md R22). -/

namespace Sys2Proof.Machine

/-- A step that answers a next state took the caller's next command and ran what it decodes to. -/
theorem step_next_inv {s t : State} (h : step s = .next t) :
    ∃ c rest i, s.pending = c :: rest ∧ decode c.cmd = .ok i ∧ exec i (s.accept c rest) = .next t := by
  unfold step at h
  split at h
  · cases h
  · rename_i c rest hp
    split at h
    · rename_i i hi
      exact ⟨c, rest, i, hp, hi, h⟩
    · cases h

end Sys2Proof.Machine
end

