-- ==== Sys2Proof/Tests/Slice0.lean ====
section
/-! SUPPORT. The model's own tests: the WellFormed smoke tests, words written out from spec/30_encoding.md, single steps with
the results of spec/95_test_vectors.md, and a witness for the hypotheses of each statement that has some. -/

namespace Sys2Proof.Tests

open Sys2Proof.Machine

/-! ## Helpers -/

/-- The example bound [1, 7] of spec/95_test_vectors.md. -/
def vectorConfig : Configuration := { trnMin := some 1, trnMax := some 7, hasDiag := false, diagMinLevel := none }

/-- The state in which the caller issues one command, with the transport's answers fixed. -/
def issuing (cmd : CmdWord) (opa : Word := 0) (ops : Lanes := 0) (opl : Len := 0) (answers : List TransportAnswer := [])
    (config : Configuration := vectorConfig) : State :=
  { State.reset with
    config := config
    pending := [{ cmd := cmd, opa := opa, ops := ops, opl := opl }]
    answers := answers }

/-- The state in which a command has been accepted, for `exec`. -/
def holding (opa : Word := 0) (ops : Lanes := 0) (opl : Len := 0) (answers : List TransportAnswer := []) : State :=
  { State.reset with
    config := vectorConfig
    ports := { cmd := 0, opa := opa, ops := ops, opl := opl }
    answers := answers }

/-- The response after a step or a command. -/
def responseOf : Result → Option Response
  | .next t => t.response
  | .fault _ => none
  | .refused _ => none

/-- The history after a step or a command. -/
def historyOf : Result → List Event
  | .next t => t.history
  | .fault _ => []
  | .refused _ => []

/-! ## WellFormed: each check refuses an ill-formed term (R64) -/

theorem test_wellFormed_refuses_negative_pack : (Instr.pack (-1) .byte .lsbFirst).wellFormed = false := by decide
theorem test_wellFormed_refuses_wide_pack : (Instr.pack 64 .word .lsbFirst).wellFormed = false := by decide
theorem test_wellFormed_refuses_negative_unpack : (Instr.unpack true (-1) .byte .lsbFirst).wellFormed = false := by decide
theorem test_wellFormed_refuses_wide_unpack : (Instr.unpack false 64 .word .msbFirst).wellFormed = false := by decide
theorem test_wellFormed_refuses_negative_xfer : (Instr.xfer (-1) .byte .lsbFirst).wellFormed = false := by decide
theorem test_wellFormed_refuses_wide_xfer : (Instr.xfer 64 .word .lsbFirst).wellFormed = false := by decide
theorem test_wellFormed_accepts_bounds :
    (Instr.pack 63 .byte .lsbFirst).wellFormed = true ∧ (Instr.unpack true 0 .byte .lsbFirst).wellFormed = true ∧
      (Instr.turnaround .read).wellFormed = true := by decide

/-! ## Decoding: words written from the encoding strings of R61 and R67 -/

/-- `000000WWWWWWCO00`, W = 001000, C = 0, O = 1: pack8 msb, 0x0084 in the table of R75. -/
theorem test_decode_pack : decode 0b0000000010000100#16 = .ok (.pack 8 .byte .msbFirst) := by decide

/-- `00000SWWWWWWCO01`, S = 1, W = 100000, C = 1, O = 0: unpack32 lsb, 0x0609 in the table of R75. -/
theorem test_decode_unpack : decode 0b0000011000001001#16 = .ok (.unpack true 32 .word .lsbFirst) := by decide

/-- `0000000000000D10`, D = 1: turn read, 0x0006 in the table of R75. -/
theorem test_decode_turnaround : decode 0b0000000000000110#16 = .ok (.turnaround .read) := by decide

/-- `000000WWWWWWCO11`, W = 100000, C = 1, O = 1: xfer32 msb, 0x020F in the table of R75. -/
theorem test_decode_xfer : decode 0b0000001000001111#16 = .ok (.xfer 32 .word .msbFirst) := by decide

/-- T-ENC-1, 3, 4, 5, 7, 8, 9. -/
theorem test_decode_refuses_reserved_bits :
    decode 0x0400#16 = .error (.reservedBitSet .pack 0x0400#16) ∧
    decode 0x0800#16 = .error (.reservedBitSet .pack 0x0800#16) ∧
    decode 0x8001#16 = .error (.reservedBitSet .unpack 0x8001#16) ∧
    decode 0x000A#16 = .error (.reservedBitSet .turnaround 0x000A#16) ∧
    decode 0xFFFF#16 = .error (.reservedBitSet .xfer 0xFFFF#16) ∧
    decode 0x0C03#16 = .error (.reservedBitSet .xfer 0x0C03#16) ∧
    decode 0x0403#16 = .error (.reservedBitSet .xfer 0x0403#16) := by decide

/-- T-ENC-2: bit 10 is SP for UNPACK. -/
theorem test_decode_unpack_w0 : decode 0x0401#16 = .ok (.unpack true 0 .byte .lsbFirst) := by decide

/-- The words of the table of R75. -/
theorem test_pseudo_words :
    (AsmLine.pack8 .lsbFirst 3).assemble = { cmd := 0x0080#16, opa := 3, ops := 0, opl := 0 } ∧
    (AsmLine.pack32 .msbFirst 3).assemble.cmd = 0x020C#16 ∧
    (AsmLine.unpack8 .msbFirst 3).assemble = { cmd := 0x0485#16, opa := 0, ops := 3, opl := 8 } ∧
    (AsmLine.unpack32 .lsbFirst 3).assemble.cmd = 0x0609#16 ∧
    (AsmLine.xfer8 .msbFirst 3).assemble.cmd = 0x0087#16 ∧
    (AsmLine.xfer32 .lsbFirst 3).assemble.cmd = 0x020B#16 ∧
    (AsmLine.turn .read 3).assemble.cmd = 0x0006#16 := by decide

/-- Lines of program P3: CMD 0x0499 with OPS 0x1FF and OPL 8, and CMD 0x0002 with OPA 0xFFFFFFFF. -/
theorem test_readLine_p3 :
    readLine "unpack w=9, cap=32, lsb, 0x1FF, len=8  ; 0x0499".toList = .line (.unpack 9 .word .lsbFirst 0x1FF 8) ∧
    readLine "TURN   write, -1".toList = .line (.turn .write 0xFFFFFFFF) := by decide

/-- Program P4's raw word, and what is no line of the syntax. -/
theorem test_readLine_raw :
    readLine ".word 0x0800".toList = .line (.rawWord 0x0800#16) ∧ readLine " ; note".toList = .nothing ∧
    readLine "pack w=64, cap=8, lsb, 0".toList = .malformed := by decide

/-- The least signed 32-bit count (D30), and an absent sequence, spelled as R74 lays them out. -/
theorem test_write_line :
    (AsmLine.turn .write 0x80000000#32).write = "turn write, -0x80000000".toList ∧
    (AsmLine.unpackNone 9 .word .msbFirst).write = "unpack w=9, cap=32, msb, none".toList := by decide

/-! ## Single steps, with the results of spec/95_test_vectors.md -/

/-- T-PACK-8: CMD 0x0054, OPA 0x13, five bits MSB first, gives SEQ 0x19 and SLEN 5. -/
theorem test_pack_reverses_within_width :
    responseOf (step (issuing 0x0054#16 (opa := 0x13))) = some (.ok { seq := 0x19, slen := 5 }) := by decide

/-- T-PACK-6 and T-PACK-10: one over the capacity, and a full 32-bit reversal. -/
theorem test_pack_bounds :
    responseOf (step (issuing 0x0090#16 (opa := 0x1FF))) = some (.err .invalidWidth) ∧
    responseOf (step (issuing 0x020C#16 (opa := 0x12345678))) = some (.ok { seq := 0x1E6A2C48, slen := 32 }) := by decide

/-- T-UNP-9 and T-UNP-11: lanes at w and above ignored, and a full 32-bit reversal. -/
theorem test_unpack_reads_first_lanes :
    responseOf (step (issuing 0x0485#16 (ops := 0x3C0) (opl := 10))) = some (.ok { res := 3 }) ∧
    responseOf (step (issuing 0x060D#16 (ops := 0x1E6A2C48) (opl := 32))) = some (.ok { res := 0x12345678 }) := by decide

/-- T-UNP-6 and T-UNP-8: a short sequence, and NullInput before InvalidWidth. -/
theorem test_unpack_errors :
    responseOf (step (issuing 0x0481#16 (ops := 0xFF) (opl := 7))) = some (.err .invalidWidth) ∧
    responseOf (step (issuing 0x0091#16)) = some (.err .nullInput) := by decide

/-- T-TRN-5, T-TRN-7 and T-TRN-10: the upper bound, the direction, and a negative range. -/
theorem test_turnaround_accepts :
    responseOf (step (issuing 0x0002#16 (opa := 7))) = some (.ok { res := 7, diro := 0 }) ∧
    responseOf (step (issuing 0x0006#16 (opa := 4))) = some (.ok { res := 4, diro := 1 }) ∧
    responseOf (step (issuing 0x0002#16 (opa := 0xFFFFFFFE)
      (config := { vectorConfig with trnMin := some 0xFFFFFFFC, trnMax := some 0xFFFFFFFF }))) =
      some (.ok { res := 0xFFFFFFFE }) := by decide

/-- T-TRN-1, T-TRN-3 and T-TRN-8: outside the bound on either side, and an empty range. And R143: a fault without a
supplied bound. -/
theorem test_turnaround_rejects :
    responseOf (step (issuing 0x0002#16 (opa := 0))) = some (.err .invalidTurnaroundCycles) ∧
    responseOf (step (issuing 0x0002#16 (opa := 8))) = some (.err .invalidTurnaroundCycles) ∧
    responseOf (step (issuing 0x0002#16 (opa := 4)
      (config := { vectorConfig with trnMin := some 5, trnMax := some 3 }))) =
      some (.err .invalidTurnaroundCycles) ∧
    step (issuing 0x0002#16 (opa := 4) (config := Configuration.notSupplied)) =
      .fault (.turnaroundBoundNotSupplied (.turnaround .write)) := ⟨by decide, by decide, by decide, rfl⟩

/-- T-XFR-2: the transport sees (8, 0xC0) and echoes it. -/
theorem test_xfer_echo :
    historyOf (step (issuing 0x0087#16 (opa := 3) (answers := [.seq 0xC0]))) =
      [.cmd { cmd := 0x0087#16, opa := 3, ops := 0, opl := 0 }, .xfer 8 0xC0, .xferAns (.seq 0xC0),
        .resp (.ok { res := 3 })] := by decide

/-- T-XFR-3, T-XFR-4 and T-XFR-5: a failure, no call, and width 0. -/
theorem test_xfer_corners :
    responseOf (step (issuing 0x020B#16 (opa := 0xDEADBEEF) (answers := [.fail (drvErrNamed 5)]))) =
      some (.err (.driverFailure (drvErrNamed 5))) ∧
    (historyOf (step (issuing 0x0093#16 (opa := 0x1FF) (answers := [.fail (drvErrNamed 5)])))).length = 2 ∧
    responseOf (step (issuing 0x0003#16 (opa := 0xFF) (answers := [.seq 0xFFFFFFFF]))) = some (.ok { res := 0 }) :=
  ⟨rfl, by decide, by decide⟩

/-- Program P4's second word is refused (R66). -/
theorem test_step_refuses_reserved : step (issuing 0x0800#16) = .refused (.reservedBitSet 0x0800#16) := rfl

/-- The host's words reach the step: the first command after reset. -/
theorem test_withFetchWord_runs :
    responseOf (step (State.reset.withFetchWord 16 0x0080)) = some (.ok { seq := 0, slen := 8 }) ∧
    decodeTableWord 16 0x0080 = some (.pack 8 .byte .lsbFirst) := by decide

/-! ## Witnesses: for each statement with hypotheses, a state and operands that meet them all -/

theorem witness_DecodeEncodeRoundTrip :
    (Instr.pack 63 .word .msbFirst).WellFormed ∧ (Instr.unpack false 0 .byte .lsbFirst).WellFormed ∧
      (Instr.turnaround .write).WellFormed ∧ (Instr.xfer 33 .word .lsbFirst).WellFormed := by decide

theorem witness_EncodeDecodeRoundTrip : ∃ i, decode 0x03F8#16 = .ok i := ⟨.pack 63 .word .lsbFirst, by decide⟩

theorem witness_DecodeRefusesExactlyReservedBits :
    (0x03FC#16 : CmdWord).extractLsb' 0 2 = 0b00#2 ∧ (0x07FD#16 : CmdWord).extractLsb' 0 2 = 0b01#2 ∧
      (0x0006#16 : CmdWord).extractLsb' 0 2 = 0b10#2 ∧ (0x03FF#16 : CmdWord).extractLsb' 0 2 = 0b11#2 := by decide

theorem witness_OpcodeRowsAreDisjoint :
    (⟨.xfer, 0x0003#16, 0xFC03#16⟩ : OpcodeRow) ∈ opcodeMap ∧
      (⟨.xfer, 0x0003#16, 0xFC03#16⟩ : OpcodeRow).selects 0x020B#16 = true := by decide

theorem witness_DecodeReadsFields :
    0x03FC#16 &&& 0xFC03#16 = 0x0000#16 ∧ 0x07FD#16 &&& 0xF803#16 = 0x0001#16 ∧ 0x0006#16 &&& 0xFFFB#16 = 0x0002#16 ∧
      0x03FF#16 &&& 0xFC03#16 = 0x0003#16 := by decide

theorem witness_StepRunsDecodedCommand :
    (issuing 0x0080#16).pending = { cmd := 0x0080#16, opa := 0, ops := 0, opl := 0 } :: [] ∧
      decode 0x0080#16 = .ok (.pack 8 .byte .lsbFirst) := by decide

theorem witness_StepRefusesWhatSpellsNoCommand :
    ((issuing 0x0400#16).pending = { cmd := 0x0400#16, opa := 0, ops := 0, opl := 0 } :: [] ∧
      decode 0x0400#16 = .error (.reservedBitSet .pack 0x0400#16)) ∧ State.reset.pending = [] := by decide

theorem witness_EveryDecodedCommandCompletes :
    decode 0x0083#16 = .ok (.xfer 8 .byte .lsbFirst) ∧ decode 0x0002#16 = .ok (.turnaround .write) ∧
      (issuing 0x0002#16).config.trnMin = some 1 ∧ (issuing 0x0002#16).config.trnMax = some 7 ∧
      State.reset.config.trnMin = none := by decide

/-- A step that answers next, for the statements about every such step. -/
theorem witness_step_next : ∃ t, step (issuing 0x0083#16 (opa := 0xA5) (answers := [.seq 0x5A])) = .next t := ⟨_, rfl⟩

/-- A step that answers next with no scripted answer left: the answer is free. -/
theorem witness_step_next_free : ∃ t, step (issuing 0x0083#16 (opa := 0xA5)) = .next t := ⟨_, rfl⟩

theorem witness_PackCompletes : ValidWidth 32 .word ∧ ValidWidth 0 .byte ∧ ValidWidth 8 .byte := by decide

theorem witness_PackWordAnswers :
    0x0054#16 &&& 0xFC03#16 = 0x0000#16 ∧ (0x0054#16 : CmdWord).extractLsb' 4 6 = 5#6 ∧
      0x0218#16 &&& 0xFC03#16 = 0x0000#16 ∧ (0x0218#16 : CmdWord).extractLsb' 4 6 = 33#6 ∧
      (issuing 0x0054#16).pending ≠ [] := by decide

theorem witness_PackIgnoresBitsAboveWidth :
    (∀ k, k < (8 : Int).toNat → (0x1FF#32).getLsbD k = (holding (opa := 0xFF)).ports.opa.getLsbD k) ∧
      (holding (opa := 0x1FF)).ports.opa = 0x1FF#32 := by decide

theorem witness_PackClosedForms :
    (∃ t f, exec (.pack 5 .byte .msbFirst) (holding (opa := 0x13)) = .next t ∧ t.response = some (.ok f)) ∧
      (∃ t f, exec (.pack 0 .byte .lsbFirst) (holding (opa := 0)) = .next t ∧ t.response = some (.ok f)) :=
  ⟨⟨_, _, rfl, rfl⟩, ⟨_, _, rfl, rfl⟩⟩

theorem witness_InvalidWidthIsRaised : (-1 : Int) < 0 ∧ (capBits .byte : Int) < 9 ∧ (capBits .word : Int) < 33 := by
  decide

theorem witness_UnpackCompletes :
    ValidWidth 32 .word ∧ (32 : Int) ≤ ((holding (opl := 32)).ports.opl.toNat : Int) ∧ ValidWidth 0 .byte ∧
      (0 : Int) ≤ ((holding (opl := 0)).ports.opl.toNat : Int) := by decide

theorem witness_UnpackErrorsInOrder :
    (capBits .byte : Int) < 9 ∧ ((holding (opl := 7)).ports.opl.toNat : Int) < 8 := by decide

theorem witness_UnpackWordAnswers :
    0x0091#16 &&& 0xF803#16 = 0x0001#16 ∧ (0x0091#16 : CmdWord).getLsbD 10 = false ∧
      0x0481#16 &&& 0xF803#16 = 0x0001#16 ∧ (0x0481#16 : CmdWord).getLsbD 10 = true ∧
      (0x0481#16 : CmdWord).extractLsb' 4 6 = 8#6 ∧ (issuing 0x0481#16).pending ≠ [] := by decide

theorem witness_UnpackReadsOnlyFirstElements :
    (∀ k, k < (8 : Int).toNat → (0x3C0#32).getLsbD k = (holding (ops := 0xC0) (opl := 8)).ports.ops.getLsbD k) ∧
      (8 : Int) ≤ ((holding (ops := 0xC0) (opl := 8)).ports.opl.toNat : Int) ∧ (8 : Int) ≤ ((10#6).toNat : Int) := by
  decide

theorem witness_UnpackResultRange :
    (∃ t f, exec (.unpack true 32 .word .lsbFirst) (holding (ops := 0xFFFFFFFF) (opl := 32)) = .next t ∧
      t.response = some (.ok f)) ∧
    (∃ t f, exec (.unpack true 0 .byte .lsbFirst) (holding (ops := 0) (opl := 0)) = .next t ∧
      t.response = some (.ok f)) :=
  ⟨⟨_, _, rfl, rfl⟩, ⟨_, _, rfl, rfl⟩⟩

theorem witness_BitOrderLaws : (32 : Nat) ≤ 32 ∧ (31 : Nat) < 32 := by decide

theorem witness_PackThenUnpackGivesLowBits :
    ∃ t f, exec (.pack 8 .byte .msbFirst) (holding (opa := 3)) = .next t ∧ t.response = some (.ok f) ∧
      (holding (ops := 0xC0) (opl := 8)).ports.ops = f.seq ∧ (holding (ops := 0xC0) (opl := 8)).ports.opl = f.slen :=
  ⟨_, _, rfl, rfl, by decide, by decide⟩

/-- A count at each end of the bound, and one beyond each end. -/
theorem witness_TurnaroundCompletes :
    vectorConfig.trnMin = some 1#32 ∧ vectorConfig.trnMax = some 7#32 ∧
      (1#32).toInt ≤ (holding (opa := 1)).ports.opa.toInt ∧ (holding (opa := 7)).ports.opa.toInt ≤ (7#32).toInt ∧
      (holding (opa := 0)).ports.opa.toInt < (1#32).toInt ∧ (holding (opa := 8)).ports.opa.toInt > (7#32).toInt := by
  decide

theorem witness_TurnaroundWordAnswers :
    0x0006#16 &&& 0xFFFB#16 = 0x0002#16 ∧ (issuing 0x0006#16).pending ≠ [] ∧
      (issuing 0x0006#16).config.trnMin = some 1#32 ∧ (issuing 0x0006#16).config.trnMax = some 7#32 := by decide

theorem witness_TurnaroundWithoutBoundFaults :
    State.reset.config.trnMin = none ∧ { vectorConfig with trnMax := none }.trnMax = none := by decide

theorem witness_TurnaroundRangeCorners :
    (∃ t, exec (.turnaround .read) { State.reset with config := { vectorConfig with trnMin := some 5, trnMax := some 3 } } =
      .next t) ∧ (3#32).toInt < (5#32).toInt ∧
    (∃ t, exec (.turnaround .read) { State.reset with config := { vectorConfig with trnMin := some 3, trnMax := some 3 } } =
      .next t) :=
  ⟨⟨_, rfl⟩, by decide, ⟨_, rfl⟩⟩

theorem witness_XferValidatesBeforeCalling :
    ∃ t, exec (.xfer 9 .byte .lsbFirst) (holding (answers := [.seq 0])) = .next t ∧
      t.response = some (.err .invalidWidth) := ⟨_, rfl, rfl⟩

/-- Each end of the range of valid widths, with an answer fixed and with none left. -/
theorem witness_XferCallsTransportOnce :
    ValidWidth 0 .byte ∧ ValidWidth 8 .byte ∧ ValidWidth 32 .word ∧
      (holding (answers := [.seq 0x5A])).answers = .seq 0x5A :: [] ∧ (holding).answers = [] := by decide

theorem witness_XferUnpacksAnswer :
    ValidWidth 8 .byte ∧ (holding (answers := [.seq 0x5A])).answers = .seq 0x5A :: [] := by decide

theorem witness_XferWordAnswers :
    0x0083#16 &&& 0xFC03#16 = 0x0003#16 ∧ (issuing 0x0083#16 (answers := [.seq 0x5A])).answers = [.seq 0x5A] ∧
      0x0093#16 &&& 0xFC03#16 = 0x0003#16 ∧ (0x0093#16 : CmdWord).extractLsb' 4 6 = 9#6 ∧
      (issuing 0x0083#16).pending ≠ [] := by decide

theorem witness_XferPassesFailureThrough :
    ValidWidth 32 .word ∧ (holding (answers := [.fail (drvErrNamed 1)])).answers = .fail (drvErrNamed 1) :: [] :=
  ⟨by decide, rfl⟩

theorem witness_XferEchoGivesLowBits :
    ∃ t r, exec (.xfer 8 .byte .msbFirst) (holding (opa := 3) (answers := [.seq 0xC0])) = .next t ∧
      eventsAdded (holding (opa := 3) (answers := [.seq 0xC0])) t = [.xfer 8 0xC0, .xferAns (.seq 0xC0), .resp r] :=
  ⟨_, _, rfl, rfl⟩

/-- A command that completes with each error kind. -/
theorem witness_ErrorsArePrecise :
    (∃ t, exec (.pack 9 .byte .lsbFirst) (holding) = .next t ∧ t.response = some (.err .invalidWidth)) ∧
    (∃ t, exec (.turnaround .write) (holding) = .next t ∧ t.response = some (.err .invalidTurnaroundCycles)) ∧
    (∃ t, exec (.unpack false 8 .byte .lsbFirst) (holding) = .next t ∧ t.response = some (.err .nullInput)) ∧
    (∃ t, exec (.xfer 8 .byte .lsbFirst) (holding (answers := [.fail (drvErrNamed 1)])) = .next t ∧
      t.response = some (.err (.driverFailure (drvErrNamed 1)))) :=
  ⟨⟨_, rfl, rfl⟩, ⟨_, rfl, rfl⟩, ⟨_, rfl, rfl⟩, ⟨_, rfl, rfl⟩⟩

/-- Each command completes somewhere with an OK response, for the statements about every next state of `exec`. -/
theorem witness_exec_next :
    (∃ t f, exec (.pack 8 .byte .lsbFirst) (holding (opa := 3)) = .next t ∧ t.response = some (.ok f)) ∧
    (∃ t f, exec (.unpack true 8 .byte .lsbFirst) (holding (ops := 3) (opl := 8)) = .next t ∧
      t.response = some (.ok f)) ∧
    (∃ t f, exec (.turnaround .read) (holding (opa := 4)) = .next t ∧ t.response = some (.ok f)) ∧
    (∃ t f, exec (.xfer 8 .byte .lsbFirst) (holding (answers := [.seq 3])) = .next t ∧ t.response = some (.ok f)) ∧
    (∃ t, exec (.xfer 8 .byte .lsbFirst) (holding) = .next t) :=
  ⟨⟨_, _, rfl, rfl⟩, ⟨_, _, rfl, rfl⟩, ⟨_, _, rfl, rfl⟩, ⟨_, _, rfl, rfl⟩, ⟨_, rfl⟩⟩

/-- Two states that agree on a PACK's own inputs and differ elsewhere. -/
theorem witness_ResponseDependsOnlyOnOwnInputs :
    (issuing 0x0080#16 (opa := 3) (ops := 1) (opl := 1)).pending ≠ (issuing 0x0080#16 (opa := 3)).pending ∧
      (issuing 0x0080#16 (opa := 3) (ops := 1)).config = (issuing 0x0080#16 (opa := 3)).config ∧
      AgreeOnPortsRead (.pack 8 .byte .lsbFirst) { cmd := 0x0080#16, opa := 3, ops := 1, opl := 1 }
        { cmd := 0x0080#16, opa := 3, ops := 0, opl := 0 } :=
  ⟨by decide, rfl, rfl⟩

/-- A failed command with another one after it. -/
theorem witness_NextCommandUnaffectedByError :
    ∃ t, step { issuing 0x0090#16 with
        pending := [{ cmd := 0x0090#16, opa := 1, ops := 0, opl := 0 }, { cmd := 0x0080#16, opa := 1, ops := 0, opl := 0 }] } =
      .next t ∧ t.response = some (.err .invalidWidth) := ⟨_, rfl, rfl⟩

/-- The state after the command of T-UNP-8, with the same command issued again. -/
def afterNullInput : State :=
  { issuing 0x0091#16 with
    ports := { cmd := 0x0091#16, opa := 0, ops := 0, opl := 0 }
    response := some (.err .nullInput)
    history := [.cmd { cmd := 0x0091#16, opa := 0, ops := 0, opl := 0 }, .resp (.err .nullInput)] }

/-- A state past reset that meets the invariant: one whole block stands in its history. -/
theorem afterNullInput_inv : afterNullInput.Inv := by
  refine ⟨[⟨{ cmd := 0x0091#16, opa := 0, ops := 0, opl := 0 }, none, [], .err .nullInput⟩], rfl, fun b hb => ?_, rfl,
    fun b hb => ?_⟩
  · obtain rfl := List.mem_singleton.mp hb
    have hd : decode 0x0091#16 = .ok (.unpack false 9 .byte .lsbFirst) := by decide
    refine ⟨rfl, ?_⟩
    simp only [hd]
    exact ⟨trivial, fun _ => rfl, fun h => absurd h (by decide), fun h => absurd h (by decide),
      fun h => absurd h (by decide)⟩
  · obtain rfl := Option.some.inj hb
    rfl

theorem witness_StepKeepsInvariant : afterNullInput.Inv ∧ ∃ t, step afterNullInput = .next t :=
  ⟨afterNullInput_inv, _, rfl⟩

/-- A diagnostic in the history before a step, for the statement that no command adds one. -/
theorem witness_NoCommandEmitsDiagnostic :
    ∃ t, step { issuing 0x0080#16 with history := [.diag ⟨severityNamed 3, "m"⟩] } = .next t ∧
      .diag ⟨severityNamed 3, "m"⟩ ∈ t.history :=
  ⟨_, rfl, List.mem_cons_self⟩

/-- No port, and a port whose threshold is the very level offered. -/
theorem witness_DiagnosticGate :
    State.reset.config.hasDiag = false ∧
      { vectorConfig with hasDiag := true, diagMinLevel := some (severityNamed 2) }.hasDiag = true ∧
      { vectorConfig with hasDiag := true, diagMinLevel := some (severityNamed 2) }.diagMinLevel = some (severityNamed 2) ∧
      severityNamed 2 ≤ severityNamed 2 := ⟨rfl, rfl, rfl, le_refl _⟩

/-- A level below the threshold and one above it, on every scale with two levels: how many there are is a parameter
(log 7). -/
theorem witness_DiagnosticGate_below (a b : Severity) (h : a ≠ b) :
    ∃ lo hi : Severity, lo < hi ∧ lo ≤ hi ∧
      { vectorConfig with hasDiag := true, diagMinLevel := some hi }.diagMinLevel = some hi ∧
      { vectorConfig with hasDiag := true, diagMinLevel := some lo }.diagMinLevel = some lo :=
  (lt_or_gt_of_ne h).elim (fun l => ⟨a, b, l, l.le, rfl, rfl⟩) fun l => ⟨b, a, l, l.le, rfl, rfl⟩

theorem witness_CurrentResponse : State.reset.response = none := rfl

/-- Before a run with nothing supplied; in the middle of one with everything supplied; in the middle of one with the bound
not yet supplied, where the move exists; and a state past reset that meets the invariant with such a move. -/
theorem witness_CallerSuppliesConfigurationAndCommands :
    (State.reset.history = [] ∧ State.reset.config.trnMin = none ∧ State.reset.config.trnMax = none ∧
      State.reset.config.diagMinLevel = none) ∧
    (afterNullInput.history ≠ [] ∧ afterNullInput.config.trnMin = some 1 ∧ afterNullInput.config.trnMax = some 7 ∧
      { afterNullInput with config := { vectorConfig with diagMinLevel := some (severityNamed 2) } }.config.diagMinLevel =
        some (severityNamed 2)) ∧
    ({ afterNullInput with config := Configuration.notSupplied }.history ≠ [] ∧
      ∃ t, { afterNullInput with config := Configuration.notSupplied }.supplyBound 1 7 = some t) ∧
    (afterNullInput.Inv ∧ ∃ t, afterNullInput.supply (.diagMinLevel (severityNamed 2)) = some t) :=
  ⟨⟨rfl, rfl, rfl, rfl⟩, ⟨nofun, rfl, rfl, rfl⟩, ⟨nofun, _, rfl⟩, afterNullInput_inv, _, rfl⟩

theorem witness_SuppliedRunFinishes :
    (∀ c ∈ (issuing 0x0083#16).pending, ∃ i, decode c.cmd = .ok i) ∧ (∃ lo, (issuing 0x0083#16).config.trnMin = some lo) ∧
      ∃ hi, (issuing 0x0083#16).config.trnMax = some hi :=
  ⟨fun _ hc => by obtain rfl := List.mem_singleton.mp hc; exact ⟨_, rfl⟩, ⟨_, rfl⟩, ⟨_, rfl⟩⟩

/-- The refused word first, and the refused word after a command that decodes. -/
theorem witness_RefusedRunNeverFinishes :
    (issuing 0x0800#16).pending = [] ++ { cmd := 0x0800#16, opa := 0, ops := 0, opl := 0 } :: [] ∧
      decode 0x0800#16 = .error (.reservedBitSet .pack 0x0800#16) ∧
      (∀ f, (runOf { issuing 0x0084#16 with
        pending := [{ cmd := 0x0084#16, opa := 3, ops := 0, opl := 0 }, { cmd := 0x0800#16, opa := 0, ops := 0, opl := 0 }] }).ended
          ≠ .faulted f) :=
  ⟨rfl, by decide, fun _ => nofun⟩

/-- The TURNAROUND first, and after a command that decodes, with the bound not supplied. -/
theorem witness_FaultingRunNeverFinishes :
    (issuing 0x0002#16 (opa := 4) (config := Configuration.notSupplied)).pending =
        [] ++ { cmd := 0x0002#16, opa := 4, ops := 0, opl := 0 } :: [] ∧
      decode 0x0002#16 = .ok (.turnaround .write) ∧ Configuration.notSupplied.trnMin = none ∧
      (∀ b ∈ [({ cmd := 0x0084#16, opa := 3, ops := 0, opl := 0 } : CommandPorts)],
        ∃ i, decode b.cmd = .ok i ∧ ∀ d, i ≠ .turnaround d) :=
  ⟨rfl, by decide, rfl, fun _ hb => by obtain rfl := List.mem_singleton.mp hb; exact ⟨_, rfl, nofun⟩⟩

theorem witness_ReaderReadsEveryWrittenLine : ∀ c ∈ [' ', '\t'], isBlank c = true := by simp [isBlank]

end Sys2Proof.Tests
end

section
/-! SUPPORT. A command's response depends on its own inputs and on nothing else (spec/10_state.md R28): each command's rule
determines one response, and two runs of a command on the same inputs have outcomes that are alike. -/

namespace Sys2Proof.Machine

/-! ### A command's rule determines its response -/

theorem PackAnswers.unique {w : Int} {cap : Capacity} {ord : ShiftOrder} {opa : Word} {a b : Response}
    (ha : PackAnswers w cap ord opa a) (hb : PackAnswers w cap ord opa b) : a = b := by
  by_cases h : ValidWidth w cap
  · obtain ⟨q, hq, rfl⟩ := ha.1 h
    obtain ⟨q', hq', rfl⟩ := hb.1 h
    rw [hq.unique hq']
  · rw [ha.2 h, hb.2 h]

theorem UnpackAnswers.unique {present : Bool} {w : Int} {cap : Capacity} {ord : ShiftOrder} {ops : Lanes} {opl : Len}
    {a b : Response} (ha : UnpackAnswers present w cap ord ops opl a)
    (hb : UnpackAnswers present w cap ord ops opl b) : a = b := by
  obtain ⟨haNull, haOk, haWidth, haShort⟩ := ha
  obtain ⟨hbNull, hbOk, hbWidth, hbShort⟩ := hb
  cases present with
  | false => rw [haNull rfl, hbNull rfl]
  | true =>
    by_cases hw : ValidWidth w cap
    · by_cases hl : w ≤ (opl.toNat : Int)
      · obtain ⟨v, hv, rfl⟩ := haOk rfl hw hl
        obtain ⟨v', hv', rfl⟩ := hbOk rfl hw hl
        rw [hv.unique hv']
      · rw [haShort rfl (not_le.mp hl), hbShort rfl (not_le.mp hl)]
    · rw [haWidth rfl hw, hbWidth rfl hw]

/-- Without the sequence-present bit UNPACK reads neither OPS nor OPL (R91). -/
theorem UnpackAnswers.congr_ports {present : Bool} {w : Int} {cap : Capacity} {ord : ShiftOrder} {ops ops' : Lanes}
    {opl opl' : Len} {r : Response} (h : present = true → ops = ops' ∧ opl = opl')
    (ha : UnpackAnswers present w cap ord ops opl r) : UnpackAnswers present w cap ord ops' opl' r := by
  cases present with
  | false => simpa [UnpackAnswers] using ha
  | true =>
    obtain ⟨rfl, rfl⟩ := h rfl
    exact ha

/-- The response of TURNAROUND exists only with both bounds supplied (R143). -/
theorem TurnaroundAnswers.not_missing {c : Configuration} {dir : Direction} {opa : Word} {r : Response}
    (h : TurnaroundAnswers c dir opa r) : ¬ (c.trnMin = none ∨ c.trnMax = none) := by
  obtain ⟨lo, hi, hlo, hhi, -⟩ := h
  simp [hlo, hhi]

theorem TurnaroundAnswers.unique {c : Configuration} {dir : Direction} {opa : Word} {a b : Response}
    (ha : TurnaroundAnswers c dir opa a) (hb : TurnaroundAnswers c dir opa b) : a = b := by
  obtain ⟨lo, hi, hlo, hhi, haIn, haOut⟩ := ha
  obtain ⟨lo', hi', hlo', hhi', hbIn, hbOut⟩ := hb
  obtain rfl : lo = lo' := Option.some.inj (hlo.symm.trans hlo')
  obtain rfl : hi = hi' := Option.some.inj (hhi.symm.trans hhi')
  by_cases h : lo.toInt ≤ opa.toInt ∧ opa.toInt ≤ hi.toInt
  · rw [haIn h, hbIn h]
  · have hout : opa.toInt < lo.toInt ∨ hi.toInt < opa.toInt := by omega
    rw [haOut hout, hbOut hout]

theorem XferAnswers.unique {w : Nat} {ord : ShiftOrder} {ans : TransportAnswer} {a b : Response}
    (ha : XferAnswers w ord ans a) (hb : XferAnswers w ord ans b) : a = b := by
  cases ans with
  | fail e => exact ha.trans hb.symm
  | seq inc =>
    obtain ⟨v, hv, rfl⟩ := ha
    obtain ⟨v', hv', rfl⟩ := hb
    rw [hv.unique hv']

/-! ### Outcomes that are alike -/

/-- Two outcomes, of a command run from `s` and of one run from `u`, are alike: both complete, with the same response when
the transport gave both the same answer, or both stop for the same reason (R28). -/
inductive OutcomesAlike (s u : State) : Result → Result → Prop where
  | next {t v : State} (h : SameTransportAnswer s t u v → t.response = v.response) :
      OutcomesAlike s u (.next t) (.next v)
  | fault (f : Fault) : OutcomesAlike s u (.fault f) (.fault f)
  | refused (r : Refusal) : OutcomesAlike s u (.refused r) (.refused r)

theorem OutcomesAlike.of_next {s u t : State} {y : Result} (h : OutcomesAlike s u (.next t) y) :
    ∃ v, y = .next v ∧ (SameTransportAnswer s t u v → t.response = v.response) := by
  cases h with
  | next h => exact ⟨_, rfl, h⟩

theorem OutcomesAlike.of_fault {s u : State} {f : Fault} {y : Result} (h : OutcomesAlike s u (.fault f) y) :
    y = .fault f := by
  cases h with
  | fault f => rfl

theorem OutcomesAlike.of_refused {s u : State} {r : Refusal} {y : Result} (h : OutcomesAlike s u (.refused r) y) :
    y = .refused r := by
  cases h with
  | refused r => rfl

/-- Two commands that complete without a call and with the same response. -/
theorem OutcomesAlike.completed (s u a b : State) (r : Response) :
    OutcomesAlike s u (.next (a.completed r)) (.next (b.completed r)) := .next fun _ => rfl

/-- The answer to an accepted command's one call stands among the events its step adds (R32, R112). -/
theorem xferAns_mem_eventsAdded (s : State) (c : CommandPorts) (rest : List CommandPorts) (w : Len) (out : Lanes)
    (ans : TransportAnswer) (r : Response) :
    .xferAns ans ∈ eventsAdded s ((s.accept c rest).completedAfterCall w out ans r) := by
  simp [eventsAdded, State.completedAfterCall]

/-! ### The four commands -/

section
variable {s u : State} {c d : CommandPorts} {rs ru : List CommandPorts}

theorem execPack_alike {w : Int} {cap : Capacity} {ord : ShiftOrder} (hp : c.opa = d.opa) :
    OutcomesAlike s u (execPack w cap ord (s.accept c rs)) (execPack w cap ord (u.accept d ru)) := by
  obtain ⟨r, he, ha⟩ := execPack_cases w cap ord (s.accept c rs)
  obtain ⟨r', he', ha'⟩ := execPack_cases w cap ord (u.accept d ru)
  rw [State.accept_ports] at ha ha'
  obtain rfl : r = r' := ha.unique (hp ▸ ha')
  rw [he, he']
  exact .completed ..

theorem execUnpack_alike {present : Bool} {w : Int} {cap : Capacity} {ord : ShiftOrder}
    (hp : present = true → c.ops = d.ops ∧ c.opl = d.opl) :
    OutcomesAlike s u (execUnpack present w cap ord (s.accept c rs)) (execUnpack present w cap ord (u.accept d ru)) := by
  obtain ⟨r, he, ha⟩ := execUnpack_cases present w cap ord (s.accept c rs)
  obtain ⟨r', he', ha'⟩ := execUnpack_cases present w cap ord (u.accept d ru)
  rw [State.accept_ports] at ha ha'
  obtain rfl : r = r' := (ha.congr_ports hp).unique ha'
  rw [he, he']
  exact .completed ..

theorem execTurnaround_alike {dir : Direction} (hcfg : s.config = u.config) (hp : c.opa = d.opa) :
    OutcomesAlike s u (execTurnaround dir (s.accept c rs)) (execTurnaround dir (u.accept d ru)) := by
  have hs := execTurnaround_cases dir (s.accept c rs)
  have hu := execTurnaround_cases dir (u.accept d ru)
  rw [State.accept_config, State.accept_ports] at hs hu
  rw [hcfg, hp] at hs
  obtain ⟨r, he, ha⟩ | ⟨hmiss, he⟩ := hs
  · obtain ⟨r', he', ha'⟩ | ⟨hmiss, -⟩ := hu
    · obtain rfl : r = r' := ha.unique ha'
      rw [he, he']
      exact .completed ..
    · exact absurd hmiss ha.not_missing
  · obtain ⟨_, _, ha'⟩ | ⟨-, he'⟩ := hu
    · exact absurd hmiss ha'.not_missing
    · rw [he, he']
      exact .fault _

theorem execXfer_alike {w : Int} {cap : Capacity} {ord : ShiftOrder} :
    OutcomesAlike s u (execXfer w cap ord (s.accept c rs)) (execXfer w cap ord (u.accept d ru)) := by
  by_cases hv : ValidWidth w cap
  · obtain ⟨out, r, -, ha, he⟩ := execXfer_valid w cap ord (s.accept c rs) hv
    obtain ⟨out', r', -, ha', he'⟩ := execXfer_valid w cap ord (u.accept d ru) hv
    rw [he, he']
    refine .next fun hsame => congrArg some (ha.unique ?_)
    rw [hsame _ _ (xferAns_mem_eventsAdded ..) (xferAns_mem_eventsAdded ..)]
    exact ha'
  · rw [execXfer_invalid w cap ord _ hv, execXfer_invalid w cap ord _ hv]
    exact .completed ..

/-- An accepted command's outcome depends on the ports it reads, the configuration and its transport answer only (R28). The
response to a call does not depend on the word sent out, except through the answer. -/
theorem exec_alike {i : Instr} (hcfg : s.config = u.config) (hp : AgreeOnPortsRead i c d) :
    OutcomesAlike s u (exec i (s.accept c rs)) (exec i (u.accept d ru)) := by
  cases i with
  | pack w cap ord => exact execPack_alike hp
  | unpack present w cap ord => exact execUnpack_alike hp
  | turnaround dir => exact execTurnaround_alike hcfg hp
  | xfer w cap ord => exact execXfer_alike

end

/-! ### One step -/

/-- A step on a word that spells a command accepts the command and runs it (R22). -/
theorem step_of_decode_ok {s : State} {c : CommandPorts} {rest : List CommandPorts} {i : Instr}
    (hp : s.pending = c :: rest) (hd : decode c.cmd = .ok i) : step s = exec i (s.accept c rest) := by
  simp only [step, hp, hd]

/-- A step on a word with a reserved bit set is refused (R66). -/
theorem step_of_decode_error {s : State} {c : CommandPorts} {rest : List CommandPorts} {op : Opcode} {cmd : CmdWord}
    (hp : s.pending = c :: rest) (hd : decode c.cmd = .error (.reservedBitSet op cmd)) :
    step s = .refused (.reservedBitSet cmd) := by
  simp only [step, hp, hd]

/-- Steps on the same word, ports read and configuration have outcomes that are alike (R28). -/
theorem step_alike {s u : State} {c d : CommandPorts} {rs ru : List CommandPorts} (hs : s.pending = c :: rs)
    (hu : u.pending = d :: ru) (hcmd : c.cmd = d.cmd) (hcfg : s.config = u.config)
    (hp : ∀ i, decode c.cmd = .ok i → AgreeOnPortsRead i c d) : OutcomesAlike s u (step s) (step u) := by
  cases hd : decode c.cmd with
  | ok i =>
    rw [step_of_decode_ok hs hd, step_of_decode_ok hu (hcmd ▸ hd)]
    exact exec_alike hcfg (hp i hd)
  | error e =>
    obtain ⟨op, cmd⟩ := e
    rw [step_of_decode_error hs hd, step_of_decode_error hu (hcmd ▸ hd)]
    exact .refused _

/-- Settles O43: the two steps' outcomes are alike, by a comparison of the two runs of each command. -/
theorem responseDependsOnlyOnOwnInputs : Obligations.ResponseDependsOnlyOnOwnInputs := by
  intro s u c d rs ru hs hu hcmd hcfg hp
  have halike := step_alike hs hu hcmd hcfg hp
  exact ⟨fun t ht => (ht ▸ halike).of_next, fun f hf => (hf ▸ halike).of_fault, fun r hr => (hr ▸ halike).of_refused⟩

end Sys2Proof.Machine
end

section
/-! SUPPORT. TURNAROUND with a supplied bound (spec/41_turnaround.md R100, R101): it always completes, and the bound decides the
response. -/

namespace Sys2Proof.Machine

/-- The rule of TURNAROUND, read at the bound the configuration supplies (R100, R101, R102). -/
theorem turnaroundAnswers_iff_of_supplied {c : Configuration} {lo hi : BitVec 32} (hlo : c.trnMin = some lo)
    (hhi : c.trnMax = some hi) (dir : Direction) (opa : Word) (r : Response) :
    TurnaroundAnswers c dir opa r ↔
      (lo.toInt ≤ opa.toInt ∧ opa.toInt ≤ hi.toInt →
        r = .ok { res := opa, diro := if dir = .read then 1#1 else 0#1 }) ∧
      (opa.toInt < lo.toInt ∨ hi.toInt < opa.toInt → r = .err .invalidTurnaroundCycles) := by
  simp [TurnaroundAnswers, hlo, hhi]

/-- With both bounds supplied TURNAROUND does not fault: it completes by its response alone (R100, R143). -/
theorem exec_turnaround_of_supplied {s : State} {lo hi : BitVec 32} (hlo : s.config.trnMin = some lo)
    (hhi : s.config.trnMax = some hi) (dir : Direction) :
    ∃ r, exec (.turnaround dir) s = .next (s.completed r) ∧ TurnaroundAnswers s.config dir s.ports.opa r := by
  obtain hdone | ⟨hmiss, -⟩ := execTurnaround_cases dir s
  · exact hdone
  · simp [hlo, hhi] at hmiss

/-- Settles O25: TURNAROUND completes by the response of its rule, and outside the range that is the error, inside it OK. -/
theorem turnaroundRejectsExactlyOutsideBound : Obligations.TurnaroundRejectsExactlyOutsideBound := by
  intro s dir lo hi hlo hhi
  obtain ⟨r, he, ha⟩ := exec_turnaround_of_supplied hlo hhi dir
  obtain ⟨hinside, houtside⟩ := (turnaroundAnswers_iff_of_supplied hlo hhi dir s.ports.opa r).mp ha
  refine ⟨s.completed r, he, fun hout => ?_, fun hnot => ?_⟩
  · rw [houtside hout]
  · have hin : lo.toInt ≤ s.ports.opa.toInt ∧ s.ports.opa.toInt ≤ hi.toInt := by omega
    exact ⟨_, congrArg some (hinside hin)⟩

end Sys2Proof.Machine
end

section
/-! SUPPORT. XFER's two ways to complete (spec/42_transfer.md): InvalidWidth means no call was made (R111), and a scripted
answer is the one answer its response is about (R112, R113). -/

namespace Sys2Proof.Machine

/-- A command that makes no call adds its response to the history and nothing else (R32). -/
@[simp] theorem eventsAdded_completed (s : State) (r : Response) : eventsAdded s (s.completed r) = [.resp r] := by
  simp [eventsAdded]

/-- No answer of the transport gives InvalidWidth: a failure keeps its own detail (R113), and a sequence gives OK (R114). -/
theorem XferAnswers.ne_invalidWidth {w : Nat} {ord : ShiftOrder} {ans : TransportAnswer} {r : Response}
    (h : XferAnswers w ord ans r) : r ≠ .err .invalidWidth := by
  cases ans with
  | fail e =>
    obtain rfl : r = .err (.driverFailure e) := h
    simp
  | seq inc =>
    obtain ⟨v, -, rfl⟩ := h
    simp

/-- An XFER that raises InvalidWidth has an invalid width: the converse of `execXfer_invalid` (R111). -/
theorem not_validWidth_of_exec_xfer {s t : State} {w : Int} {cap : Capacity} {ord : ShiftOrder}
    (he : exec (.xfer w cap ord) s = .next t) (hr : t.response = some (.err .invalidWidth)) : ¬ ValidWidth w cap := by
  intro hv
  obtain ⟨out, r, -, ha, hnext⟩ := execXfer_valid w cap ord s hv
  obtain rfl := Host.Outcome.next.inj (he.symm.trans hnext)
  exact ha.ne_invalidWidth (Option.some.inj hr)

/-- With a scripted answer, a valid XFER completes after one call by the response to that answer (R112). -/
theorem exec_xfer_of_scripted {s : State} {w : Int} {cap : Capacity} {a : TransportAnswer} {rest : List TransportAnswer}
    (hv : ValidWidth w cap) (hs : s.answers = a :: rest) (ord : ShiftOrder) :
    ∃ out r, SequenceOf s.ports.opa w.toNat ord out ∧ XferAnswers w.toNat ord a r ∧
      exec (.xfer w cap ord) s = .next (s.completedAfterCall (BitVec.ofNat 6 w.toNat) out a r) := by
  obtain ⟨out, r, ho, ha, he⟩ := execXfer_valid w cap ord s hv
  rw [transfer_scripted _ _ _ _ _ hs] at ha he
  exact ⟨out, r, ho, ha, he⟩

/-- Settles O28: InvalidWidth means the width is invalid, and then XFER adds its response and nothing else. -/
theorem xferValidatesBeforeCalling : Obligations.XferValidatesBeforeCalling := by
  intro s t w cap ord he hr
  have hinvalid := not_validWidth_of_exec_xfer he hr
  obtain rfl := Host.Outcome.next.inj (he.symm.trans (execXfer_invalid w cap ord s hinvalid))
  simp

/-- Settles O32: the one call gets the scripted failure, and XFER answers it with DriverFailure and the same detail. -/
theorem xferPassesFailureThrough : Obligations.XferPassesFailureThrough := by
  intro s w cap ord e rest hv hs
  obtain ⟨out, r, -, hanswer, he⟩ := exec_xfer_of_scripted hv hs ord
  obtain rfl : r = .err (.driverFailure e) := hanswer
  have hrest : s.answers.tail = rest := by rw [hs, List.tail_cons]
  exact ⟨_, out, _, he, rfl, rfl, rfl, hrest, rfl⟩

end Sys2Proof.Machine
end

section
/-! SUPPORT. Which command raises which error, and with what effect (spec/60_exceptions.md R121 to R126): one inversion lemma
for a command that completes with an error, from which the statements about errors are read off. -/

namespace Sys2Proof.Machine

/-! ### The error kinds each command's rule gives -/

theorem PackAnswers.err_invalidWidth {w : Int} {cap : Capacity} {ord : ShiftOrder} {opa : Word} {k : ErrorKind}
    (h : PackAnswers w cap ord opa (.err k)) : k = .invalidWidth := by
  obtain ⟨hvalid, hinvalid⟩ := h
  by_cases hw : ValidWidth w cap
  · obtain ⟨_, -, hok⟩ := hvalid hw
    cases hok
  · exact Response.err.inj (hinvalid hw)

theorem UnpackAnswers.err_cases {present : Bool} {w : Int} {cap : Capacity} {ord : ShiftOrder} {ops : Lanes} {opl : Len}
    {k : ErrorKind} (h : UnpackAnswers present w cap ord ops opl (.err k)) : k = .invalidWidth ∨ k = .nullInput := by
  obtain ⟨hnull, hvalid, hwidth, hshort⟩ := h
  cases present with
  | false => exact .inr (Response.err.inj (hnull rfl))
  | true =>
    by_cases hw : ValidWidth w cap
    · by_cases hl : w ≤ (opl.toNat : Int)
      · obtain ⟨_, -, hok⟩ := hvalid rfl hw hl
        cases hok
      · exact .inl (Response.err.inj (hshort rfl (not_le.mp hl)))
    · exact .inl (Response.err.inj (hwidth rfl hw))

/-- TURNAROUND has one error, and it has it only outside its bound (R123). -/
theorem TurnaroundAnswers.err_outside {c : Configuration} {dir : Direction} {opa : Word} {k : ErrorKind}
    (h : TurnaroundAnswers c dir opa (.err k)) :
    k = .invalidTurnaroundCycles ∧ ∃ lo hi, c.trnMin = some lo ∧ c.trnMax = some hi ∧
      ¬ (lo.toInt ≤ opa.toInt ∧ opa.toInt ≤ hi.toInt) := by
  obtain ⟨lo, hi, hlo, hhi, hinside, houtside⟩ := h
  have hnot : ¬ (lo.toInt ≤ opa.toInt ∧ opa.toInt ≤ hi.toInt) := fun hin => by cases hinside hin
  exact ⟨Response.err.inj (houtside (by omega)), lo, hi, hlo, hhi, hnot⟩

/-- An error after a call is the failure the call answered (R124). -/
theorem XferAnswers.err_fail {w : Nat} {ord : ShiftOrder} {ans : TransportAnswer} {k : ErrorKind}
    (h : XferAnswers w ord ans (.err k)) : ∃ e, ans = .fail e ∧ k = .driverFailure e := by
  cases ans with
  | fail e => exact ⟨e, rfl, Response.err.inj h⟩
  | seq inc =>
    obtain ⟨_, -, hok⟩ := h
    cases hok

/-! ### A command that completes with an error -/

/-- Every way a command completes with an error: a local error changes nothing but the response, a TURNAROUND's among them
only outside the bound, and a DriverFailure has the one call behind it that answered that failure (R122 to R126). -/
theorem exec_error_cases {i : Instr} {s t : State} {k : ErrorKind} (h : exec i s = .next t)
    (hr : t.response = some (.err k)) :
    ((k = .invalidWidth ∨ k = .nullInput) ∧ t = s.completed (.err k)) ∨
    (∃ dir lo hi, i = .turnaround dir ∧ s.config.trnMin = some lo ∧ s.config.trnMax = some hi ∧
      ¬ (lo.toInt ≤ s.ports.opa.toInt ∧ s.ports.opa.toInt ≤ hi.toInt) ∧ k = .invalidTurnaroundCycles ∧
      t = s.completed (.err k)) ∨
    (∃ n out e, k = .driverFailure e ∧ t = s.completedAfterCall n out (.fail e) (.err k)) := by
  obtain ⟨w, cap, ord, r, -, ha, rfl⟩ | ⟨p, w, cap, ord, r, -, ha, rfl⟩ | ⟨dir, r, hcmd, ha, rfl⟩ |
    ⟨w, cap, ord, -, -, rfl⟩ | ⟨w, cap, ord, out, r, -, -, -, ha, rfl⟩ := exec_next_cases h
  · obtain rfl : r = .err k := Option.some.inj hr
    exact .inl ⟨.inl ha.err_invalidWidth, rfl⟩
  · obtain rfl : r = .err k := Option.some.inj hr
    exact .inl ⟨ha.err_cases, rfl⟩
  · obtain rfl : r = .err k := Option.some.inj hr
    obtain ⟨hk, lo, hi, hlo, hhi, hnot⟩ := ha.err_outside
    exact .inr (.inl ⟨dir, lo, hi, hcmd, hlo, hhi, hnot, hk, rfl⟩)
  · obtain rfl : .invalidWidth = k := Response.err.inj (Option.some.inj hr)
    exact .inl ⟨.inl rfl, rfl⟩
  · obtain rfl : r = .err k := Option.some.inj hr
    obtain ⟨e, hans, hk⟩ := ha.err_fail
    exact .inr (.inr ⟨_, out, e, hk, by rw [hans]⟩)

/-- Settles O34: each way to complete with an error has the effect R126 allows for its kind. -/
theorem errorsArePrecise : Obligations.ErrorsArePrecise := by
  intro i s t k h hr
  obtain ⟨rfl | rfl, ht⟩ | ⟨_, _, _, -, -, -, -, rfl, ht⟩ | ⟨n, out, e, rfl, ht⟩ := exec_error_cases h hr
  · exact ht
  · exact ht
  · exact ht
  · exact ⟨n, out, ht⟩

/-- Settles O36: of the ways to complete with an error only TURNAROUND's has this kind, and outside its supplied bound
TURNAROUND always completes with it. -/
theorem invalidTurnaroundCyclesExactly : Obligations.InvalidTurnaroundCyclesExactly := by
  intro i s t h
  constructor
  · intro hr
    obtain ⟨hk | hk, -⟩ | ⟨dir, lo, hi, hcmd, hlo, hhi, hnot, -, -⟩ | ⟨_, _, _, hk, -⟩ := exec_error_cases h hr
    · cases hk
    · cases hk
    · exact ⟨dir, lo, hi, hcmd, hlo, hhi, hnot⟩
    · cases hk
  · rintro ⟨dir, lo, hi, rfl, hlo, hhi, hnot⟩
    obtain ⟨r, he, ha⟩ := exec_turnaround_of_supplied hlo hhi dir
    obtain rfl := Host.Outcome.next.inj (h.symm.trans he)
    obtain ⟨-, houtside⟩ := (turnaroundAnswers_iff_of_supplied hlo hhi dir s.ports.opa r).mp ha
    exact congrArg some (houtside (by omega))

end Sys2Proof.Machine
end

section
/-! SUPPORT. What a step writes into the history (spec/10_state.md R32): it appends the events of its one command, the response
last, and leaves every earlier event where it stood (spec/70_reset_and_hazards.md R145). -/

namespace Sys2Proof.Machine

/-- A command that reaches a next state has completed with one response, with or without a transport call (R32, R112). -/
theorem exec_next_completed {i : Instr} {s t : State} (h : exec i s = .next t) :
    ∃ r, t = s.completed r ∨ ∃ n out a, t = s.completedAfterCall n out a r := by
  obtain ⟨_, _, _, r, -, -, ht⟩ | ⟨_, _, _, _, r, -, -, ht⟩ | ⟨_, r, -, -, ht⟩ | ⟨_, _, _, -, -, ht⟩ |
    ⟨_, _, _, out, r, -, -, -, -, ht⟩ := exec_next_cases h
  · exact ⟨r, .inl ht⟩
  · exact ⟨r, .inl ht⟩
  · exact ⟨r, .inl ht⟩
  · exact ⟨_, .inl ht⟩
  · exact ⟨r, .inr ⟨_, out, _, ht⟩⟩

/-- A step appends its command's block of events to the history: the command, its one transport call if it made one, and last
the response that stands on the ports (R32). -/
theorem step_next_history {s t : State} (h : step s = .next t) :
    ∃ c r, t.response = some r ∧
      (t.history = s.history ++ [.cmd c, .resp r] ∨
        ∃ n out a, t.history = s.history ++ [.cmd c, .xfer n out, .xferAns a, .resp r]) := by
  obtain ⟨c, rest, i, -, -, he⟩ := step_next_inv h
  obtain ⟨r, rfl | ⟨n, out, a, rfl⟩⟩ := exec_next_completed he
  · exact ⟨c, r, rfl, .inl (by simp)⟩
  · exact ⟨c, r, rfl, .inr ⟨n, out, a, by simp [State.completedAfterCall]⟩⟩

/-- The history before a step is the head of the history after it (R145). -/
theorem history_prefix_of_step {s t : State} (h : step s = .next t) : s.history <+: t.history := by
  obtain ⟨c, r, -, ht | ⟨n, out, a, ht⟩⟩ := step_next_history h
  · exact ⟨_, ht.symm⟩
  · exact ⟨_, ht.symm⟩

/-- Of the events a step adds, exactly one is a response (R32). -/
theorem countP_isRespEvent_of_step {s t : State} (h : step s = .next t) :
    t.history.countP isRespEvent = s.history.countP isRespEvent + 1 := by
  obtain ⟨c, r, -, ht | ⟨n, out, a, ht⟩⟩ := step_next_history h
  · rw [ht, List.countP_append]; rfl
  · rw [ht, List.countP_append]; rfl

/-- Settles O47: the step only appends to the history, and one of the appended events is a response. -/
theorem earlierResponsesAreKept : Obligations.EarlierResponsesAreKept := by
  intro s t h
  obtain ⟨_, r, hr, -⟩ := step_next_history h
  refine ⟨fun n e hn => ?_, r, hr, countP_isRespEvent_of_step h⟩
  obtain ⟨hlt, rfl⟩ := List.getElem?_eq_some_iff.mp hn
  exact List.prefix_iff_getElem?.mp (history_prefix_of_step h) n hlt

end Sys2Proof.Machine
end

section
/-! SUPPORT. The opcode map said once (spec/30_encoding.md R60 to R70): a row selects a word by its OP and the reserved bits of
its format, and decoding tries the row OP names and no other. -/

namespace Sys2Proof

/-! ### The rows of the map -/

/-- The lowest reserved bit of a command's format; every bit above it is reserved too (R61, R65, R67). -/
def Opcode.reservedFrom : Opcode → Nat
  | .pack => 10
  | .unpack => 11
  | .turnaround => 3
  | .xfer => 10

/-- The bits of a word that the format of `op` reserves. -/
def reservedBits (op : Opcode) (cmd : CmdWord) : BitVec (16 - op.reservedFrom) :=
  cmd.extractLsb' op.reservedFrom (16 - op.reservedFrom)

/-- The row of a command: its mask covers OP and the reserved bits of its format (R69). -/
def rowOf (op : Opcode) : OpcodeRow :=
  ⟨op, 0#14 ++ op.bits, BitVec.allOnes 16 <<< op.reservedFrom ||| 3#16⟩

theorem rowOf_mem (op : Opcode) : rowOf op ∈ opcodeMap := by
  cases op <;> decide

theorem eq_rowOf_of_mem {r : OpcodeRow} (h : r ∈ opcodeMap) : r = rowOf r.op := by
  have all : ∀ r ∈ opcodeMap, r = rowOf r.op := by decide
  exact all r h

/-- A word under a mask of OP and the bits from `k` up, compared with a pattern that has only OP bits. -/
theorem and_mask_eq_iff (cmd : CmdWord) (b : BitVec 2) (k : Nat) (hk : 2 ≤ k) :
    cmd &&& (BitVec.allOnes 16 <<< k ||| 3#16) = 0#14 ++ b ↔
      cmd.extractLsb' 0 2 = b ∧ cmd.extractLsb' k (16 - k) = 0 := by
  have low (i : Nat) : (3#16).getLsbD i = decide (i < 2) := by
    rw [BitVec.getLsbD_ofNat, show (3 : Nat) = 2 ^ 2 - 1 from rfl, Nat.testBit_two_pow_sub_one, ← Bool.decide_and]
    exact decide_eq_decide.mpr (by omega)
  simp only [BitVec.eq_of_getLsbD_eq_iff, BitVec.getLsbD_and, BitVec.getLsbD_or, BitVec.getLsbD_shiftLeft,
    BitVec.getLsbD_allOnes, BitVec.getLsbD_append, BitVec.getLsbD_extractLsb', low]
  constructor
  · intro h
    refine ⟨fun i hi => ?_, fun i hi => ?_⟩
    · have := h i (by omega)
      simp_all
    · have h2 : ¬ k + i < 2 := by omega
      have h16 : k + i < 16 := by omega
      simpa [hi, h2, h16, show i < 16 by omega] using h (k + i) h16
  · rintro ⟨hop, hres⟩ i hi
    by_cases h2 : i < 2
    · have := hop i h2
      simp_all
    · by_cases h : i < k
      · simp [h2, h]
      · have hbit := hres (i - k) (by omega)
        rw [show k + (i - k) = i by omega, decide_eq_true (by omega), Bool.true_and] at hbit
        rw [hbit, if_neg h2]
        simp

theorem opcodeOf_eq_iff (cmd : CmdWord) (op : Opcode) : opcodeOf cmd = op ↔ cmd.extractLsb' 0 2 = op.bits := by
  have h0 : cmd.getLsbD 0 = (cmd.extractLsb' 0 2).getLsbD 0 := by simp
  have h1 : cmd.getLsbD 1 = (cmd.extractLsb' 0 2).getLsbD 1 := by simp
  rw [opcodeOf, h0, h1]
  generalize cmd.extractLsb' 0 2 = b
  revert b
  cases op <;> decide

/-- A row selects a word exactly when OP names the row's command and no reserved bit of its format is set (R66, R69). -/
theorem selects_iff_of_mem {r : OpcodeRow} {cmd : CmdWord} (hr : r ∈ opcodeMap) :
    r.selects cmd = true ↔ opcodeOf cmd = r.op ∧ reservedBits r.op cmd = 0 := by
  have hk : 2 ≤ r.op.reservedFrom := by cases r.op <;> decide
  rw [opcodeOf_eq_iff, reservedBits, ← and_mask_eq_iff _ _ _ hk, OpcodeRow.selects, beq_iff_eq, eq_rowOf_of_mem hr, rowOf]

/-! ### Decoding -/

/-- Decoding reads the fields of the format OP names, when that format's reserved bits are 0, and refuses the word otherwise
(R66, R70). -/
theorem decode_eq (cmd : CmdWord) :
    decode cmd = if reservedBits (opcodeOf cmd) cmd = 0 then .ok (readFields (opcodeOf cmd) cmd)
      else .error (.reservedBitSet (opcodeOf cmd) cmd) := by
  rw [decode]
  cases hf : opcodeMap.find? (fun r => r.selects cmd) with
  | none =>
    have hres : ¬ reservedBits (opcodeOf cmd) cmd = 0 := fun hres =>
      List.find?_eq_none.mp hf _ (rowOf_mem _) ((selects_iff_of_mem (rowOf_mem _)).mpr ⟨rfl, hres⟩)
    rw [if_neg hres]
  | some r =>
    have hs : r.selects cmd = true := List.find?_some (p := fun q : OpcodeRow => q.selects cmd) hf
    obtain ⟨hop, hres⟩ := (selects_iff_of_mem (List.mem_of_find?_eq_some hf)).mp hs
    rw [hop, if_pos hres]

/-- A word that a row selects decodes to the row's command (R69). -/
theorem decode_of_selects {cmd : CmdWord} {r : OpcodeRow} (hr : r ∈ opcodeMap) (hs : r.selects cmd = true) :
    decode cmd = .ok (readFields r.op cmd) := by
  obtain ⟨hop, hres⟩ := (selects_iff_of_mem hr).mp hs
  rw [decode_eq, hop, if_pos hres]

/-- The mark of a refused word is that word (R66). -/
theorem eq_of_decode_error {cmd cmd' : CmdWord} {op : Opcode} (h : decode cmd = .error (.reservedBitSet op cmd')) :
    cmd' = cmd := by
  rw [decode_eq] at h
  split at h
  · cases h
  · cases h
    rfl

/-- Settles O3: the word decodes by the format OP names, whose reserved bits decide. -/
theorem decodeRefusesExactlyReservedBits : Obligations.DecodeRefusesExactlyReservedBits := by
  intro cmd
  have decoded (op : Opcode) (h : cmd.extractLsb' 0 2 = op.bits) (hres : reservedBits op cmd = 0) :
      decode cmd = .ok (readFields op cmd) := by
    rw [decode_eq, (opcodeOf_eq_iff cmd op).mpr h, if_pos hres]
  have refused (op : Opcode) (h : cmd.extractLsb' 0 2 = op.bits) (hres : ¬ reservedBits op cmd = 0) :
      decode cmd = .error (.reservedBitSet op cmd) := by
    rw [decode_eq, (opcodeOf_eq_iff cmd op).mpr h, if_neg hres]
  refine ⟨fun h => ?_, fun h => ?_, fun h => ?_, fun h => ?_⟩
  · split
    · exact ⟨_, _, _, decoded .pack h ‹_›⟩
    · exact refused .pack h ‹_›
  · split
    · exact ⟨_, _, _, _, decoded .unpack h ‹_›⟩
    · exact refused .unpack h ‹_›
  · split
    · exact ⟨_, decoded .turnaround h ‹_›⟩
    · exact refused .turnaround h ‹_›
  · split
    · exact ⟨_, _, _, decoded .xfer h ‹_›⟩
    · exact refused .xfer h ‹_›

/-- Settles O4: each row selects only words with its own OP, and OP has one row. -/
theorem opcodeRowsAreDisjoint : Obligations.OpcodeRowsAreDisjoint := by
  intro cmd r q hr hq hrs hqs
  obtain ⟨hrop, -⟩ := (selects_iff_of_mem hr).mp hrs
  obtain ⟨hqop, -⟩ := (selects_iff_of_mem hq).mp hqs
  rw [eq_rowOf_of_mem hr, eq_rowOf_of_mem hq, ← hrop, hqop]

/-- Settles O5: the four masks and patterns are those of the map's rows. -/
theorem decodeReadsFields : Obligations.DecodeReadsFields := by
  intro cmd
  have row (op : Opcode) (h : cmd &&& (rowOf op).mask = (rowOf op).pattern) : decode cmd = .ok (readFields op cmd) :=
    decode_of_selects (rowOf_mem op) (beq_iff_eq.mpr h)
  exact ⟨row .pack, row .unpack, row .turnaround, row .xfer⟩

/-- Settles O6: each of the six closed words is decoded. -/
theorem sampleWordsDecode : Obligations.SampleWordsDecode :=
  ⟨by decide, by decide, by decide, by decide, by decide, by decide⟩

end Sys2Proof
end

section
/-! SUPPORT. Encoding and decoding are inverse to each other (spec/30_encoding.md R61, R67, R69): reading the fields of a command's
word gives the command back, and writing the fields of a word that decodes gives the word back. -/

namespace Sys2Proof

/-! ### From a command to its word and back -/

section
variable (sp : BitVec 1) (w : Int) (cap : Capacity) (ord : ShiftOrder) (op : Opcode) (dir : Direction)

theorem widField_encodeB (hw : encodableWidth w) : widField (encodeB sp w cap ord op) = w := by
  have hwid : (encodeB sp w cap ord op).extractLsb' 4 6 = BitVec.ofInt 6 w := by
    refine BitVec.eq_of_getLsbD_eq fun i hi => ?_
    simp only [encodeB, BitVec.getLsbD_append, BitVec.getLsbD_extractLsb']
    interval_cases i <;> simp
  rw [widField, hwid, BitVec.toNat_ofInt]
  omega

theorem capField_encodeB : capField (encodeB sp w cap ord op) = cap := by
  simp only [capField, encodeB, BitVec.getLsbD_append]
  cases cap <;> rfl

theorem ordField_encodeB : ordField (encodeB sp w cap ord op) = ord := by
  simp only [ordField, encodeB, BitVec.getLsbD_append]
  cases ord <;> rfl

theorem spField_encodeB (present : Bool) : spField (encodeB (BitVec.ofBool present) w cap ord op) = present := by
  simp only [spField, encodeB, BitVec.getLsbD_append]
  cases present <;> rfl

theorem dirField_encodeT : dirField (encodeT dir) = dir := by
  cases dir <;> rfl

end

theorem readFields_encode {i : Instr} (h : i.WellFormed) : readFields i.opcode (encode i) = i := by
  cases i with
  | pack w cap ord =>
    simp only [Instr.opcode, readFields, encode, widField_encodeB _ _ _ _ _ h, capField_encodeB, ordField_encodeB]
  | unpack present w cap ord =>
    simp only [Instr.opcode, readFields, encode, widField_encodeB _ _ _ _ _ h, capField_encodeB, ordField_encodeB,
      spField_encodeB]
  | turnaround dir =>
    simp only [Instr.opcode, readFields, encode, dirField_encodeT]
  | xfer w cap ord =>
    simp only [Instr.opcode, readFields, encode, widField_encodeB _ _ _ _ _ h, capField_encodeB, ordField_encodeB]

theorem encode_in_own_row (i : Instr) : Laws.EncodeInOwnRow.Statement i := by
  cases i with
  | pack w cap ord => exact Laws.EncodeInOwnRow.pack w cap ord
  | unpack present w cap ord => exact Laws.EncodeInOwnRow.unpack present w cap ord
  | turnaround dir => exact Laws.EncodeInOwnRow.turnaround dir
  | xfer w cap ord => exact Laws.EncodeInOwnRow.xfer w cap ord

theorem decode_encode {i : Instr} (h : i.WellFormed) : decode (encode i) = .ok i := by
  obtain ⟨r, hr, hop, hs⟩ := encode_in_own_row i
  rw [decode_of_selects hr hs, hop, readFields_encode h]

/-- Settles O1: the command's own row selects its word, and the fields read from it are the command's operands. -/
theorem decodeEncodeRoundTrip : Obligations.DecodeEncodeRoundTrip := fun _ h => decode_encode h

/-! ### From a word to its command and back -/

theorem Capacity.bit_ofBit (b : Bool) : (Capacity.ofBit b).bit = BitVec.ofBool b := by cases b <;> rfl

theorem ShiftOrder.bit_ofBit (b : Bool) : (ShiftOrder.ofBit b).bit = BitVec.ofBool b := by cases b <;> rfl

theorem Direction.bit_ofBit (b : Bool) : (Direction.ofBit b).bit = BitVec.ofBool b := by cases b <;> rfl

theorem ofInt_widField (cmd : CmdWord) : BitVec.ofInt 6 (widField cmd) = cmd.extractLsb' 4 6 := by
  rw [widField, BitVec.ofInt_natCast, BitVec.ofNat_toNat, BitVec.setWidth_eq]

theorem encodableWidth_widField (cmd : CmdWord) : encodableWidth (widField cmd) := by
  have := (cmd.extractLsb' 4 6).isLt
  simp only [widField]
  omega

/-- A word is the row of its fields in format B (R61). -/
theorem word_eq_formatB (cmd : CmdWord) :
    cmd = cmd.extractLsb' 11 5 ++ BitVec.ofBool (cmd.getLsbD 10) ++ cmd.extractLsb' 4 6 ++
      BitVec.ofBool (cmd.getLsbD 3) ++ BitVec.ofBool (cmd.getLsbD 2) ++ cmd.extractLsb' 0 2 := by
  refine BitVec.eq_of_getLsbD_eq fun i hi => ?_
  simp only [BitVec.getLsbD_append, BitVec.getLsbD_extractLsb', BitVec.getLsbD_ofBool]
  interval_cases i <;> simp

/-- A word is the row of its fields in format T (R67). -/
theorem word_eq_formatT (cmd : CmdWord) :
    cmd = cmd.extractLsb' 3 13 ++ BitVec.ofBool (cmd.getLsbD 2) ++ cmd.extractLsb' 0 2 := by
  refine BitVec.eq_of_getLsbD_eq fun i hi => ?_
  simp only [BitVec.getLsbD_append, BitVec.getLsbD_extractLsb', BitVec.getLsbD_ofBool]
  interval_cases i <;> simp

/-- With the bits from 10 up reserved and 0, SP is 0 as well (R61, R66). -/
theorem spField_of_reserved {cmd : CmdWord} (h : cmd.extractLsb' 10 6 = 0#6) :
    spField cmd = false ∧ cmd.extractLsb' 11 5 = 0#5 := by
  have bit (i : Nat) (hi : i < 6) : cmd.getLsbD (10 + i) = false := by
    simpa [hi] using congrArg (BitVec.getLsbD · i) h
  refine ⟨bit 0 (by decide), BitVec.eq_of_getLsbD_eq fun i hi => ?_⟩
  have hbit := bit (i + 1) (by omega)
  rw [show 10 + (i + 1) = 11 + i by omega] at hbit
  simpa [hi] using hbit

theorem encodeB_fields {cmd : CmdWord} {op : Opcode} (hop : cmd.extractLsb' 0 2 = op.bits)
    (hres : cmd.extractLsb' 11 5 = 0#5) :
    encodeB (BitVec.ofBool (spField cmd)) (widField cmd) (capField cmd) (ordField cmd) op = cmd := by
  conv_rhs => rw [word_eq_formatB cmd, hop, hres]
  rw [encodeB, ofInt_widField, capField, ordField, spField, Capacity.bit_ofBit, ShiftOrder.bit_ofBit]

theorem encodeT_fields {cmd : CmdWord} (hop : cmd.extractLsb' 0 2 = Opcode.turnaround.bits)
    (hres : cmd.extractLsb' 3 13 = 0#13) : encodeT (dirField cmd) = cmd := by
  conv_rhs => rw [word_eq_formatT cmd, hop, hres]
  rw [encodeT, dirField, Direction.bit_ofBit]

theorem encode_readFields {op : Opcode} {cmd : CmdWord} (hop : opcodeOf cmd = op) (hres : reservedBits op cmd = 0) :
    encode (readFields op cmd) = cmd := by
  rw [opcodeOf_eq_iff] at hop
  cases op with
  | pack =>
    obtain ⟨hsp, h11⟩ := spField_of_reserved hres
    simpa [hsp, encode, readFields] using encodeB_fields hop h11
  | unpack => exact encodeB_fields hop hres
  | turnaround => exact encodeT_fields hop hres
  | xfer =>
    obtain ⟨hsp, h11⟩ := spField_of_reserved hres
    simpa [hsp, encode, readFields] using encodeB_fields hop h11

theorem wellFormed_readFields (op : Opcode) (cmd : CmdWord) : (readFields op cmd).WellFormed := by
  cases op with
  | pack => exact encodableWidth_widField cmd
  | unpack => exact encodableWidth_widField cmd
  | turnaround => exact trivial
  | xfer => exact encodableWidth_widField cmd

/-- Settles O2: a word that decodes has no reserved bit set, so the fields decoding reads are all of it. -/
theorem encodeDecodeRoundTrip : Obligations.EncodeDecodeRoundTrip := by
  intro cmd i h
  rw [decode_eq] at h
  split at h
  · obtain rfl := Except.ok.inj h
    exact ⟨wellFormed_readFields _ cmd, encode_readFields rfl ‹_›⟩
  · cases h

end Sys2Proof
end

section
/-! SUPPORT. The effect of a command and of a step on the whole state (spec/10_state.md R22, R32): a response alone, or a response
after the one transport call of a valid XFER. -/

namespace Sys2Proof.Machine

/-! ### State.completedAfterCall -/

section
variable (s : State) (c : CommandPorts) (rest : List CommandPorts) (n : Len) (out : Lanes) (a : TransportAnswer) (r : Response)

@[simp] theorem State.completedAfterCall_config : (s.completedAfterCall n out a r).config = s.config := rfl
@[simp] theorem State.completedAfterCall_ports : (s.completedAfterCall n out a r).ports = s.ports := rfl
@[simp] theorem State.completedAfterCall_pending : (s.completedAfterCall n out a r).pending = s.pending := rfl
@[simp] theorem State.completedAfterCall_answers : (s.completedAfterCall n out a r).answers = s.answers.tail := rfl
@[simp] theorem State.completedAfterCall_draws :
    (s.completedAfterCall n out a r).draws = if s.answers = [] then s.draws + 1 else s.draws := rfl
@[simp] theorem State.completedAfterCall_response : (s.completedAfterCall n out a r).response = some r := rfl
@[simp] theorem State.completedAfterCall_history :
    (s.completedAfterCall n out a r).history = s.history ++ [.xfer n out, .xferAns a, .resp r] := rfl

@[simp] theorem eventsAdded_completedAfterCall :
    eventsAdded s (s.completedAfterCall n out a r) = [.xfer n out, .xferAns a, .resp r] := by
  simp [eventsAdded]

@[simp] theorem eventsAdded_accept_completed :
    eventsAdded s ((s.accept c rest).completed r) = [.cmd c, .resp r] := by
  simp [eventsAdded]

@[simp] theorem eventsAdded_accept_completedAfterCall :
    eventsAdded s ((s.accept c rest).completedAfterCall n out a r) = [.cmd c, .xfer n out, .xferAns a, .resp r] := by
  simp [eventsAdded]

end

/-! ### Commands -/

/-- A command that completes has made no transport call, or it is an XFER that passed validation and made one (R112). -/
theorem exec_next_effect {i : Instr} {s t : State} (h : exec i s = .next t) :
    (∃ r, t = s.completed r) ∨
    ∃ w cap ord n out a r, i = .xfer w cap ord ∧ ValidWidth w cap ∧ t = s.completedAfterCall n out a r := by
  obtain ⟨_, _, _, r, -, -, ht⟩ | ⟨_, _, _, _, r, -, -, ht⟩ | ⟨_, r, -, -, ht⟩ | ⟨_, _, _, -, -, ht⟩ |
    ⟨w, cap, ord, out, r, hi, hv, -, -, ht⟩ := exec_next_cases h
  · exact .inl ⟨r, ht⟩
  · exact .inl ⟨r, ht⟩
  · exact .inl ⟨r, ht⟩
  · exact .inl ⟨_, ht⟩
  · exact .inr ⟨w, cap, ord, _, out, _, r, hi, hv, ht⟩

/-- No command writes the configuration, the input ports or the caller's list (R23, R26). -/
theorem exec_next_frame {i : Instr} {s t : State} (h : exec i s = .next t) :
    t.config = s.config ∧ t.ports = s.ports ∧ t.pending = s.pending := by
  obtain ⟨r, rfl⟩ | ⟨_, _, _, n, out, a, r, -, -, rfl⟩ := exec_next_effect h
  · exact ⟨rfl, rfl, rfl⟩
  · exact ⟨rfl, rfl, rfl⟩

/-- Every command but TURNAROUND completes in every state; for XFER that is the spec's assumption D19. -/
theorem exec_completes_of_ne_turnaround {i : Instr} (h : ∀ dir, i ≠ .turnaround dir) (s : State) :
    ∃ t, exec i s = .next t := by
  cases i with
  | pack w cap ord =>
    obtain ⟨_, he, -⟩ := execPack_cases w cap ord s
    exact ⟨_, he⟩
  | unpack present w cap ord =>
    obtain ⟨_, he, -⟩ := execUnpack_cases present w cap ord s
    exact ⟨_, he⟩
  | turnaround dir => exact absurd rfl (h dir)
  | xfer w cap ord =>
    by_cases hv : ValidWidth w cap
    · obtain ⟨_, _, -, -, he⟩ := execXfer_valid w cap ord s hv
      exact ⟨_, he⟩
    · exact ⟨_, execXfer_invalid w cap ord s hv⟩

theorem exec_turnaround_completes {s : State} {lo hi : BitVec 32} (hlo : s.config.trnMin = some lo)
    (hhi : s.config.trnMax = some hi) (dir : Direction) : ∃ t, exec (.turnaround dir) s = .next t := by
  obtain ⟨_, he, -⟩ := exec_turnaround_of_supplied hlo hhi dir
  exact ⟨_, he⟩

/-- With both bounds supplied every command completes, XFER by the spec's assumption D19. -/
theorem exec_completes_of_supplied {s : State} {lo hi : BitVec 32} (hlo : s.config.trnMin = some lo)
    (hhi : s.config.trnMax = some hi) (i : Instr) : ∃ t, exec i s = .next t := by
  by_cases hturn : ∃ dir, i = .turnaround dir
  · obtain ⟨dir, rfl⟩ := hturn
    exact exec_turnaround_completes hlo hhi dir
  · exact exec_completes_of_ne_turnaround (fun dir hdir => hturn ⟨dir, hdir⟩) s

/-- Without a bound TURNAROUND faults and names itself (R143). -/
theorem exec_turnaround_of_missing {s : State} (h : s.config.trnMin = none ∨ s.config.trnMax = none) (dir : Direction) :
    exec (.turnaround dir) s = .fault (.turnaroundBoundNotSupplied (.turnaround dir)) := by
  obtain ⟨_, -, ha⟩ | ⟨-, he⟩ := execTurnaround_cases dir s
  · exact absurd h ha.not_missing
  · exact he

/-- Settles O26: the case of `execTurnaround` in which a bound is missing. -/
theorem turnaroundWithoutBoundFaults : Obligations.TurnaroundWithoutBoundFaults := fun _ dir h =>
  exec_turnaround_of_missing h dir

/-- Settles O40: a command other than XFER completes without a call. -/
theorem localCommandsFrame : Obligations.LocalCommandsFrame := by
  intro i s t hlocal h
  obtain ⟨r, rfl⟩ | ⟨w, cap, ord, _, _, _, _, hi, -, -⟩ := exec_next_effect h
  · exact ⟨rfl, rfl, rfl, rfl, rfl, r, rfl, rfl⟩
  · exact absurd hi (hlocal w cap ord)

/-- Settles O41: without a call no answer is used; with one, the next scripted answer or a free one is. -/
theorem xferFrame : Obligations.XferFrame := by
  intro w cap ord s t h
  obtain ⟨r, rfl⟩ | ⟨_, _, _, n, out, a, r, -, -, rfl⟩ := exec_next_effect h
  · exact ⟨rfl, rfl, rfl, .inl ⟨rfl, rfl⟩, [], r, rfl, by simp⟩
  · refine ⟨rfl, rfl, rfl, .inr ?_, [.xfer n out, .xferAns a], r, rfl, by simp⟩
    cases hs : s.answers with
    | nil => exact .inr (by simp [hs])
    | cons b rest => exact .inl ⟨b, by simp [hs]⟩

/-! ### Steps -/

/-- Settles O7: `step` decodes the next command and runs it in the state that has accepted it. -/
theorem stepRunsDecodedCommand : Obligations.StepRunsDecodedCommand := fun _ _ _ _ hp hd => step_of_decode_ok hp hd

theorem step_refused_of_decode_error {s : State} {c : CommandPorts} {rest : List CommandPorts} {e : DecodeError}
    (hp : s.pending = c :: rest) (hd : decode c.cmd = .error e) : step s = .refused (.reservedBitSet c.cmd) := by
  obtain ⟨op, cmd⟩ := e
  rw [step_of_decode_error hp hd, eq_of_decode_error hd]

/-- Settles O8: the decoder refuses a word with the word itself as the mark, and an empty list leaves nothing to decode. -/
theorem stepRefusesWhatSpellsNoCommand : Obligations.StepRefusesWhatSpellsNoCommand :=
  ⟨fun _ _ _ _ hp hd => step_refused_of_decode_error hp hd, fun s hp => by simp only [step, hp]⟩

/-- Settles O9: the accepted command runs, and only TURNAROUND can lack what it needs. -/
theorem everyDecodedCommandCompletes : Obligations.EveryDecodedCommandCompletes := by
  intro s c rest i hp hd
  rw [step_of_decode_ok hp hd]
  refine ⟨fun hne => exec_completes_of_ne_turnaround hne _, ?_, ?_⟩
  · rintro dir lo hi rfl hlo hhi
    exact exec_turnaround_completes (s := s.accept c rest) hlo hhi dir
  · rintro dir rfl hmiss
    exact exec_turnaround_of_missing (s := s.accept c rest) hmiss dir

/-- The whole effect of a step: the next command is accepted, and completes with or without its one transport call. -/
theorem step_next_effect {s t : State} (h : step s = .next t) :
    ∃ c rest, s.pending = c :: rest ∧
      ((∃ r, t = (s.accept c rest).completed r) ∨
        ∃ w cap ord n out a r, decode c.cmd = .ok (.xfer w cap ord) ∧ ValidWidth w cap ∧
          t = (s.accept c rest).completedAfterCall n out a r) := by
  obtain ⟨c, rest, i, hp, hd, he⟩ := step_next_inv h
  refine ⟨c, rest, hp, ?_⟩
  obtain hlocal | ⟨w, cap, ord, n, out, a, r, rfl, hv, ht⟩ := exec_next_effect he
  · exact .inl hlocal
  · exact .inr ⟨w, cap, ord, n, out, a, r, hd, hv, ht⟩

/-- A step takes the caller's next command to the input ports and leaves the configuration alone. -/
theorem step_next_frame {s t : State} (h : step s = .next t) :
    s.pending = t.ports :: t.pending ∧ t.config = s.config := by
  obtain ⟨c, rest, hp, ⟨r, rfl⟩ | ⟨_, _, _, n, out, a, r, -, -, rfl⟩⟩ := step_next_effect h
  · exact ⟨hp, rfl⟩
  · exact ⟨hp, rfl⟩

/-- Settles O10: between its `Cmd` and its `Resp` a step adds nothing, or the one call and its answer. -/
theorem stepIsOneWholeCommand : Obligations.StepIsOneWholeCommand := by
  intro s t h
  obtain ⟨c, rest, hp, ⟨r, rfl⟩ | ⟨_, _, _, n, out, a, r, -, -, rfl⟩⟩ := step_next_effect h
  · exact ⟨c, [], r, hp, rfl, rfl, by simp, by simp, by simp⟩
  · exact ⟨c, [.xfer n out, .xferAns a], r, hp, rfl, rfl, by simp, by simp, by simp⟩

/-- Settles O42: the configuration is no part of what a step changes. -/
theorem noStepChangesConfiguration : Obligations.NoStepChangesConfiguration := fun _ _ h => (step_next_frame h).2

/-- Settles O48: the two forms of a step's events; the one with a call is a valid XFER's. -/
theorem atMostOneCallPerCommand : Obligations.AtMostOneCallPerCommand := by
  intro s t h
  obtain ⟨c, rest, -, ⟨r, rfl⟩ | ⟨w, cap, ord, n, out, a, r, hd, hv, rfl⟩⟩ := step_next_effect h
  · exact .inl ⟨r, eventsAdded_accept_completed ..⟩
  · exact .inr ⟨n, out, a, r, eventsAdded_accept_completedAfterCall .., w, cap, ord, hd, hv⟩

/-- Settles O49: neither form of a step's events holds a `Diag`. -/
theorem noCommandEmitsDiagnostic : Obligations.NoCommandEmitsDiagnostic := by
  intro s t m h
  obtain ⟨r, he⟩ | ⟨n, out, a, r, he, -⟩ := atMostOneCallPerCommand s t h
  · simp [he]
  · simp [he]

/-- Settles O51: the response of a step's `Resp` is on the ports; without a response, reading is the fault of R29. -/
theorem currentResponse : Obligations.CurrentResponse := by
  refine ⟨fun s t h => ?_, fun s hs => by simp only [State.readResponse, hs]⟩
  obtain ⟨c, mid, r, -, -, hr, hh, -, -⟩ := stepIsOneWholeCommand s t h
  exact ⟨r, by simp only [State.readResponse, hr], by rw [hh, List.getLast?_concat]⟩

/-- Settles O44: the failed step leaves the configuration as it was, so the next command's step is alike in both states. -/
theorem nextCommandUnaffectedByError : Obligations.NextCommandUnaffectedByError := by
  intro s t c d rest k hp h _
  obtain ⟨hpt, hcfg⟩ := step_next_frame h
  obtain ⟨-, htail⟩ := List.cons.inj (hp.symm.trans hpt)
  have hagree (i : Instr) : AgreeOnPortsRead i d d := by cases i <;> simp [AgreeOnPortsRead]
  obtain ⟨hnext, hfault, hrefused⟩ := responseDependsOnlyOnOwnInputs { s with pending := d :: rest } t d d rest rest rfl
    htail.symm rfl hcfg.symm fun i _ => hagree i
  refine ⟨htail.symm, fun v hv => ?_, hfault, hrefused⟩
  obtain ⟨v', hv', hsame⟩ := hnext v hv
  exact ⟨v', hv', fun hans => (hsame hans).symm⟩

end Sys2Proof.Machine
end

section
/-! SUPPORT. The history is a row of whole conforming blocks (spec/10_state.md R28, R32, R49): a command that completes adds one
conforming block, and neither a fresh history nor a caller's move breaks the row. -/

namespace Sys2Proof.Machine

/-! ### One command, one block -/

/-- The state holds the row of blocks of `s` and one block more, `b`, whose command and response are on the ports. -/
def State.ExtendsBy (t s : State) (b : CommandBlock) : Prop :=
  t.config = s.config ∧ t.ports = b.ports ∧ t.response = some b.resp ∧ t.history = s.history ++ b.events

/-- The block of a command that makes no call. -/
def localBlock (c : CommandPorts) (r : Response) : CommandBlock :=
  { ports := c, call := none, diags := [], resp := r }

/-- The block of a command that calls the transport. -/
def callBlock (c : CommandPorts) (call : TransportCall) (r : Response) : CommandBlock :=
  { ports := c, call := some call, diags := [], resp := r }

theorem completed_extendsBy (s : State) (c : CommandPorts) (rest : List CommandPorts) (r : Response) :
    ((s.accept c rest).completed r).ExtendsBy s (localBlock c r) :=
  ⟨rfl, rfl, rfl, by simp [localBlock, CommandBlock.events, callEvents]⟩

theorem completedAfterCall_extendsBy (s : State) (c : CommandPorts) (rest : List CommandPorts) (call : TransportCall)
    (r : Response) :
    ((s.accept c rest).completedAfterCall call.width call.outgoing call.answer r).ExtendsBy s (callBlock c call r) :=
  ⟨rfl, rfl, rfl, by simp [callBlock, CommandBlock.events, callEvents]⟩

/-- A command that completes adds one block, and the block is what the command's rule demands (R28). -/
theorem exec_next_block {i : Instr} {s t : State} {c : CommandPorts} {rest : List CommandPorts}
    (hd : decode c.cmd = .ok i) (h : exec i (s.accept c rest) = .next t) :
    ∃ b, CommandBlock.Conforms s.config b ∧ t.ExtendsBy s b := by
  obtain ⟨w, cap, ord, r, rfl, ha, rfl⟩ | ⟨p, w, cap, ord, r, rfl, ha, rfl⟩ | ⟨dir, r, rfl, ha, rfl⟩ |
    ⟨w, cap, ord, rfl, hv, rfl⟩ | ⟨w, cap, ord, out, r, rfl, hv, ho, ha, rfl⟩ := exec_next_cases h
  · exact ⟨_, by simpa [CommandBlock.Conforms, localBlock, hd] using ha, completed_extendsBy ..⟩
  · exact ⟨_, by simpa [CommandBlock.Conforms, localBlock, hd] using ha, completed_extendsBy ..⟩
  · exact ⟨_, by simpa [CommandBlock.Conforms, localBlock, hd] using ha, completed_extendsBy ..⟩
  · exact ⟨_, by simp [CommandBlock.Conforms, localBlock, hd, hv], completed_extendsBy ..⟩
  · refine ⟨_, ⟨rfl, ?_⟩, completedAfterCall_extendsBy s c rest ⟨_, out, _⟩ r⟩
    simp only [callBlock, hd]
    exact ⟨fun _ => ⟨_, rfl, rfl, ho, ha⟩, fun n => absurd hv n⟩

theorem step_next_block {s t : State} (h : step s = .next t) :
    ∃ b, CommandBlock.Conforms s.config b ∧ t.ExtendsBy s b := by
  obtain ⟨c, rest, i, -, hd, he⟩ := step_next_inv h
  exact exec_next_block hd he

/-! ### The invariant -/

/-- A history without events and without a response is the row of no blocks. -/
theorem inv_of_fresh {s : State} (hh : s.history = []) (hr : s.response = none) : s.Inv :=
  ⟨[], hh, by simp, hr, by simp⟩

/-- One more conforming block at the end of the row keeps the invariant. -/
theorem State.Inv.extend {s t : State} {b : CommandBlock} (hs : s.Inv) (hb : CommandBlock.Conforms s.config b)
    (ht : t.ExtendsBy s b) : t.Inv := by
  obtain ⟨blocks, hh, hc, -, -⟩ := hs
  obtain ⟨hcfg, hports, hresp, hhist⟩ := ht
  refine ⟨blocks ++ [b], by simp [hhist, hh], ?_, by simp [hresp], by simp [hports]⟩
  rw [hcfg]
  simpa [or_imp, forall_and] using ⟨hc, hb⟩

/-- Settles O45: the step adds one conforming block at the end of the row. -/
theorem stepKeepsInvariant : Obligations.StepKeepsInvariant := by
  intro s t hs h
  obtain ⟨b, hb, ht⟩ := step_next_block h
  exact hs.extend hb ht

/-- Settles O46: reset leaves no event and no response. -/
theorem resetMeetsInvariant : Obligations.ResetMeetsInvariant := inv_of_fresh rfl rfl

/-- Settles O53: so does a reset between commands, which keeps the configuration. -/
theorem resetKeepsConfiguration : Obligations.ResetKeepsConfiguration := fun _ _ _ =>
  ⟨rfl, rfl, rfl, inv_of_fresh rfl rfl⟩

/-- Settles O52: the fields of the reset state. -/
theorem resetValues : Obligations.ResetValues := ⟨rfl, rfl, rfl, rfl, rfl⟩

end Sys2Proof.Machine
end

section
/-! SUPPORT. The caller's moves between steps (spec/60_exceptions.md R139, spec/70_reset_and_hazards.md R142): which supplies exist,
and that supplying a value not yet supplied takes no conforming block's conformance away. -/

namespace Sys2Proof.Machine

/-! ### Which supplies exist -/

theorem State.supply_of_free {s : State} {item : ConfigItem} (h : item.suppliedIn s.config = false ∨ s.history = []) :
    s.supply item = some { s with config := item.setIn s.config } :=
  (s.supply_eq_some_iff _ item).mpr ⟨h.symm, rfl⟩

theorem State.supply_of_supplied {s : State} {item : ConfigItem} (hh : s.history ≠ [])
    (h : item.suppliedIn s.config = true) : s.supply item = none := by
  cases hs : s.supply item with
  | none => rfl
  | some t =>
    obtain ⟨hfree | hfree, -⟩ := (s.supply_eq_some_iff t item).mp hs
    · exact absurd hfree hh
    · exact absurd (h.symm.trans hfree) (by decide)

/-! ### Supplying keeps the invariant -/

/-- A block that conforms still does when a value not yet supplied is supplied: only TURNAROUND reads a configuration value, and
a completed TURNAROUND had its bound supplied already (R143). -/
theorem CommandBlock.Conforms.setIn {c : Configuration} {b : CommandBlock} {item : ConfigItem}
    (hfree : item.suppliedIn c = false) (hb : b.Conforms c) : b.Conforms (item.setIn c) := by
  obtain ⟨hdiags, hrule⟩ := hb
  refine ⟨hdiags, ?_⟩
  split at hrule
  · exact hrule
  · exact hrule
  · exact hrule
  · obtain ⟨hcall, lo, hi, hlo, hhi, hresp⟩ := hrule
    refine ⟨hcall, lo, hi, ?_, ?_, hresp⟩
    · cases item <;> simp_all [ConfigItem.suppliedIn, ConfigItem.setIn]
    · cases item <;> simp_all [ConfigItem.suppliedIn, ConfigItem.setIn]
  · exact hrule

theorem CommandBlock.events_ne_nil (b : CommandBlock) : b.events ≠ [] := by
  simp [CommandBlock.events]

/-- Supplying a value keeps the invariant: before the run's first command there is no block, and afterwards no block depends on
a value not yet supplied. -/
theorem State.Inv.supply {s t : State} {item : ConfigItem} (hs : s.Inv) (h : s.supply item = some t) : t.Inv := by
  obtain ⟨hfree, rfl⟩ := (s.supply_eq_some_iff t item).mp h
  obtain ⟨blocks, hh, hc, hr, hp⟩ := hs
  refine ⟨blocks, hh, fun b hb => ?_, hr, hp⟩
  obtain hnil | hfree := hfree
  · rw [hnil] at hh
    exact absurd (List.flatMap_eq_nil_iff.mp hh.symm b hb) b.events_ne_nil
  · exact (hc b hb).setIn hfree

theorem State.Inv.issue {s : State} (hs : s.Inv) (c : CommandPorts) : (s.issue c).Inv := hs

/-! ### Supplying the bound -/

/-- Supplying the bound is two supplies, so it exists when each of them does and sets both values. -/
theorem State.supplyBound_of_free {s : State} (lo hi : BitVec 32)
    (h : (s.config.trnMin = none ∧ s.config.trnMax = none) ∨ s.history = []) :
    s.supplyBound lo hi = some { s with config := { s.config with trnMin := some lo, trnMax := some hi } } := by
  have hmin : s.supply (.trnMin lo) = some { s with config := ConfigItem.setIn (.trnMin lo) s.config } :=
    State.supply_of_free (h.imp_left fun ⟨hn, _⟩ => by simp [ConfigItem.suppliedIn, hn])
  rw [State.supplyBound, hmin, Option.bind_some]
  exact State.supply_of_free (h.imp_left fun ⟨_, hn⟩ => by simp [ConfigItem.suppliedIn, ConfigItem.setIn, hn])

/-- During a run a supplied TRN_MAX bars supplying the bound, as supplying TRN_MIN first does not change it. -/
theorem State.supplyBound_of_trnMax {s : State} {v : BitVec 32} (lo hi : BitVec 32) (hh : s.history ≠ [])
    (h : s.config.trnMax = some v) : s.supplyBound lo hi = none := by
  rw [State.supplyBound, Option.bind_eq_none_iff]
  intro t ht
  obtain ⟨-, rfl⟩ := (s.supply_eq_some_iff t _).mp ht
  exact State.supply_of_supplied hh (by simp [ConfigItem.suppliedIn, ConfigItem.setIn, h])

/-- Settles O54: each move exists exactly where `State.supply` has it, and keeps the invariant. -/
theorem callerSuppliesConfigurationAndCommands : Obligations.CallerSuppliesConfigurationAndCommands := by
  intro s c b lo hi level
  refine ⟨?_, ?_, ?_, ?_, rfl, ?_, ?_, ?_⟩
  · exact fun h => State.supply_of_free (item := .trnMin lo) (h.imp_left fun hn => by simp [ConfigItem.suppliedIn, hn])
  · exact fun h => State.supply_of_free (item := .trnMax hi) (h.imp_left fun hn => by simp [ConfigItem.suppliedIn, hn])
  · exact fun h => State.supply_of_free (item := .diagMinLevel level)
      (h.imp_left fun hn => by simp [ConfigItem.suppliedIn, hn])
  · exact fun h => State.supply_of_free (item := .hasDiag b) (.inr h)
  · intro h
    exact ⟨_, State.supplyBound_of_free lo hi h, rfl, rfl, fun dir => exec_turnaround_completes rfl rfl dir⟩
  · intro hh
    have stays (item : ConfigItem) (h : item.suppliedIn s.config = true) : s.supply item = none :=
      State.supply_of_supplied hh h
    refine ⟨stays (.hasDiag b) rfl, fun v hv => ?_, fun v hv => ?_, fun l hl => ?_⟩
    · have hnone := stays (.trnMin lo) (by simp [ConfigItem.suppliedIn, hv])
      exact ⟨hnone, by rw [State.supplyBound, hnone, Option.bind_none]⟩
    · exact ⟨stays (.trnMax hi) (by simp [ConfigItem.suppliedIn, hv]), State.supplyBound_of_trnMax lo hi hh hv⟩
    · exact stays (.diagMinLevel level) (by simp [ConfigItem.suppliedIn, hl])
  · exact fun hs => ⟨fun item t h => hs.supply h, hs.issue c⟩

end Sys2Proof.Machine
end

section
/-! SUPPORT. Runs (spec/70_reset_and_hazards.md R148): a run is its first step and the run from there, so it ends at its first command
that does not complete. -/

namespace Sys2Proof.Machine

/-! ### One step of a run -/

/-- The end a step gives its run, when it answers no next state. -/
def stopOf : Result → Option RunEnd
  | .next _ => none
  | .fault f => some (.faulted f)
  | .refused r => some (.refused r)

theorem ne_finished_of_stopOf {o : Result} {e : RunEnd} (h : stopOf o = some e) : e ≠ .finished := by
  cases o with
  | next t => cases h
  | fault f =>
    obtain rfl := Option.some.inj h
    nofun
  | refused r =>
    obtain rfl := Option.some.inj h
    nofun

theorem runOf_of_no_pending {s : State} (hp : s.pending = []) : runOf s = { history := s.history, ended := .finished } := by
  rw [runOf, hp, List.length_nil, runCommands]

theorem runOf_of_next {s t : State} (h : step s = .next t) : runOf s = runOf t := by
  obtain ⟨hp, -⟩ := step_next_frame h
  rw [runOf, hp, List.length_cons, runCommands, h, runOf]

theorem runOf_of_stop {s : State} {e : RunEnd} {c : CommandPorts} {rest : List CommandPorts} (hp : s.pending = c :: rest)
    (h : stopOf (step s) = some e) : runOf s = { history := s.history, ended := e } := by
  rw [runOf, hp, List.length_cons, runCommands]
  cases hs : step s with
  | next t => simp [hs, stopOf] at h
  | fault f => simp_all [stopOf]
  | refused r => simp_all [stopOf]

/-- The next command of a state that has one: the step completes it or stops the run. -/
theorem step_next_or_stop (s : State) : (∃ t, step s = .next t) ∨ ∃ e, stopOf (step s) = some e := by
  cases step s with
  | next t => exact .inl ⟨t, rfl⟩
  | fault f => exact .inr ⟨_, rfl⟩
  | refused r => exact .inr ⟨_, rfl⟩

/-! ### Runs that finish -/

/-- Settles O55: by induction over the waiting commands, each of which completes and adds one response. -/
theorem suppliedRunFinishes : Obligations.SuppliedRunFinishes := by
  intro s hdec hmin hmax
  induction hp : s.pending generalizing s with
  | nil => simp [runOf_of_no_pending hp]
  | cons c rest ih =>
    obtain ⟨lo, hlo⟩ := hmin
    obtain ⟨hi, hhi⟩ := hmax
    obtain ⟨i, hd⟩ := hdec c (by simp [hp])
    obtain ⟨t, ht⟩ := exec_completes_of_supplied (s := s.accept c rest) hlo hhi i
    rw [← step_of_decode_ok hp hd] at ht
    obtain ⟨hpt, hcfg⟩ := step_next_frame ht
    obtain ⟨-, rfl⟩ := List.cons.inj (hp.symm.trans hpt)
    obtain ⟨hend, hcount⟩ := ih t (fun d hdm => hdec d (by simp [hp, hdm])) ⟨lo, hcfg ▸ hlo⟩ ⟨hi, hcfg ▸ hhi⟩ rfl
    rw [runOf_of_next ht]
    refine ⟨hend, ?_⟩
    rw [hcount, countP_isRespEvent_of_step ht, List.length_cons]
    omega

/-! ### Runs that stop -/

/-- A run whose list reaches a command that stops it ends there, or at a command before it that stops it; either way no command
from there on enters its history. -/
theorem runOf_stops {before after : List CommandPorts} {c : CommandPorts} {e : RunEnd} {s : State}
    (hp : s.pending = before ++ c :: after)
    (hstop : ∀ u : State, u.config = s.config → u.pending = c :: after → stopOf (step u) = some e) :
    (runOf s).history.countP isRespEvent ≤ s.history.countP isRespEvent + before.length ∧
    ((runOf s).ended = e ∨
      ∃ b ∈ before, ∃ (u : State) (rest : List CommandPorts), u.config = s.config ∧ u.pending = b :: rest ∧
        stopOf (step u) = some (runOf s).ended) := by
  induction before generalizing s with
  | nil =>
    rw [runOf_of_stop hp (hstop s rfl hp)]
    exact ⟨le_refl _, .inl rfl⟩
  | cons b bs ih =>
    obtain ⟨t, ht⟩ | ⟨e', he'⟩ := step_next_or_stop s
    · obtain ⟨hpt, hcfg⟩ := step_next_frame ht
      obtain ⟨-, hrest⟩ := List.cons.inj (hp.symm.trans hpt)
      obtain ⟨hcount, hend⟩ := ih hrest.symm fun u hu => hstop u (hu.trans hcfg)
      rw [countP_isRespEvent_of_step ht] at hcount
      rw [runOf_of_next ht, List.length_cons]
      refine ⟨by omega, hend.imp_right ?_⟩
      rintro ⟨d, hd, u, rest, hu, hup, hus⟩
      exact ⟨d, List.mem_cons_of_mem b hd, u, rest, hu.trans hcfg, hup, hus⟩
    · rw [runOf_of_stop hp he']
      exact ⟨by simp, .inr ⟨b, List.mem_cons_self, s, _, rfl, hp, he'⟩⟩

/-- Among the commands that decode only a TURNAROUND stops its run, and by a fault (R143). -/
theorem stopOf_step_of_decode_ok {s : State} {c : CommandPorts} {rest : List CommandPorts} {i : Instr} {e : RunEnd}
    (hp : s.pending = c :: rest) (hd : decode c.cmd = .ok i) (h : stopOf (step s) = some e) :
    ∃ dir f, i = .turnaround dir ∧ e = .faulted f := by
  rw [step_of_decode_ok hp hd] at h
  by_cases hne : ∀ dir, i ≠ .turnaround dir
  · obtain ⟨t, ht⟩ := exec_completes_of_ne_turnaround hne (s.accept c rest)
    rw [ht] at h
    cases h
  · push Not at hne
    obtain ⟨dir, rfl⟩ := hne
    obtain ⟨_, he, -⟩ | ⟨-, he⟩ := execTurnaround_cases dir (s.accept c rest)
    · cases (congrArg stopOf he).symm.trans h
    · exact ⟨dir, _, rfl, (Option.some.inj ((congrArg stopOf he).symm.trans h)).symm⟩

/-- Settles O56: the refused word stops the run, unless a command before it has; one that decodes can only have faulted. -/
theorem refusedRunNeverFinishes : Obligations.RefusedRunNeverFinishes := by
  intro s before after c e hp hd
  obtain ⟨hcount, hend⟩ := runOf_stops (e := .refused (.reservedBitSet c.cmd)) hp fun u _ hu => by
    rw [step_refused_of_decode_error hu hd, stopOf]
  refine ⟨?_, hcount, fun hbefore hnofault => ?_⟩
  · obtain hend | ⟨_, -, _, _, -, -, hstop⟩ := hend
    · rw [hend]
      nofun
    · exact ne_finished_of_stopOf hstop
  · obtain hend | ⟨b, hb, u, rest, -, hup, hstop⟩ := hend
    · exact hend
    · obtain ⟨i, hi⟩ := hbefore b hb
      obtain ⟨_, f, -, hf⟩ := stopOf_step_of_decode_ok hup hi hstop
      exact absurd hf (hnofault f)

/-- Settles O57: the TURNAROUND stops the run, unless a command before it has; one that is no TURNAROUND cannot have. -/
theorem faultingRunNeverFinishes : Obligations.FaultingRunNeverFinishes := by
  intro s before after c dir hp hd hmiss
  obtain ⟨hcount, hend⟩ := runOf_stops (e := .faulted (.turnaroundBoundNotSupplied (.turnaround dir))) hp fun u hu hup => by
    rw [step_of_decode_ok hup hd, exec_turnaround_of_missing (by rwa [State.accept_config, hu]), stopOf]
  refine ⟨?_, hcount, fun hbefore => ?_⟩
  · obtain hend | ⟨_, -, _, _, -, -, hstop⟩ := hend
    · rw [hend]
      nofun
    · exact ne_finished_of_stopOf hstop
  · obtain hend | ⟨b, hb, u, rest, -, hup, hstop⟩ := hend
    · exact hend
    · obtain ⟨i, hi, hne⟩ := hbefore b hb
      obtain ⟨d, _, hturn, -⟩ := stopOf_step_of_decode_ok hup hi hstop
      exact absurd hturn (hne d)

end Sys2Proof.Machine
end

section
/-! SUPPORT. The diagnostic port and the status codes (spec/60_exceptions.md R121, R130). -/

namespace Sys2Proof.Machine

/-- Settles O50: of the port's cases, the hypotheses of each clause leave one. -/
theorem diagnosticGate : Obligations.DiagnosticGate := by
  intro s m threshold
  refine ⟨fun hport => ?_, fun hport hlevel hbelow => ?_, fun hport hlevel hreach => ?_⟩
  · simp only [emitDiag, hport, Bool.false_eq_true, if_false]
  · simp only [emitDiag, hport, hlevel, if_true, if_pos hbelow]
  · simp only [emitDiag, hport, hlevel, if_true, if_neg (not_lt.mpr hreach)]
    rfl

/-- Settles O38: each response has the code of its kind, and the greatest is DriverFailure's 4. -/
theorem statusCodes : Obligations.StatusCodes := by
  refine ⟨fun _ => rfl, rfl, rfl, rfl, fun _ => rfl, fun r => ?_⟩
  cases r with
  | ok f => exact Nat.zero_le 4
  | err k =>
    cases k with
    | invalidWidth => decide
    | invalidTurnaroundCycles => decide
    | nullInput => decide
    | driverFailure e => exact le_refl 4

end Sys2Proof.Machine
end

section
/-! SUPPORT. The assembler (spec/30_encoding.md R74, R75): its lines encode well-formed commands, and its reader reads back what the
writer writes. -/

namespace Sys2Proof.Machine

theorem encodableWidth_toNat (w : Len) : encodableWidth (w.toNat : Int) := by
  have := w.isLt
  omega

/-- Settles O58: each line's word is the encoding of the command it names, which is well-formed because its width has six bits. -/
theorem assembledLinesDecode : Obligations.AssembledLinesDecode := by
  intro w cap ord v n dir raw
  have hw := encodableWidth_toNat w
  exact ⟨rfl, ⟨decode_encode (i := .pack w.toNat cap ord) hw, rfl, rfl, rfl⟩,
    ⟨decode_encode (i := .unpack true w.toNat cap ord) hw, rfl, rfl, rfl⟩,
    ⟨decode_encode (i := .unpack false w.toNat cap ord) hw, rfl, rfl, rfl⟩,
    ⟨decode_encode (i := .turnaround dir) trivial, rfl, rfl, rfl⟩,
    ⟨decode_encode (i := .xfer w.toNat cap ord) hw, rfl, rfl, rfl⟩⟩

/-- Settles O60: a pseudo-instruction names the ports its expansion names, and every other line is its own expansion. -/
theorem pseudoInstructionsExpand : Obligations.PseudoInstructionsExpand := by
  intro a
  cases a <;> rfl

/-- Reading depends on a text only through its letters in lower case, without its comment (R74). -/
theorem readLine_congr {a b : List Char} (h : (stripComment a).map lowerChar = (stripComment b).map lowerChar) :
    readLine a = readLine b := by
  rw [readLine, h, ← readLine]

theorem readLine_map_lowerChar (text : List Char) : readLine (text.map lowerChar) = readLine text := by
  refine readLine_congr ?_
  rw [stripComment_map_lowerChar, List.map_map]
  exact List.map_congr_left fun c _ => lowerChar_lowerChar c

theorem readLine_comment (text note : List Char) : readLine (text ++ ';' :: note) = readLine text :=
  readLine_congr (by rw [stripComment_comment])

theorem isBlank_iff (c : Char) : isBlank c = true ↔ c = ' ' ∨ c = '\t' := by
  simp [isBlank]

/-- A text of blanks has nothing to assemble. -/
theorem readLine_blank {text : List Char} (h : ∀ c ∈ text, isBlank c = true) : readLine text = .nothing := by
  have keep (c : Char) (hc : c ∈ text) : (c != ';') = true ∧ lowerChar c = c := by
    obtain rfl | rfl := (isBlank_iff c).mp (h c hc)
    · decide
    · decide
  have hstrip : stripComment text = text := List.takeWhile_eq_self_iff.mpr fun c hc => (keep c hc).1
  have hlower : text.map lowerChar = text := (List.map_congr_left fun c hc => (keep c hc).2).trans (List.map_id' _)
  have htrim : trimBlanks text = [] := by
    rw [trimBlanks, List.dropWhile_eq_nil_iff.mpr h]
    rfl
  rw [readLine, hstrip, hlower, htrim]

/-- Settles O59: a written line is a mnemonic and operands that are read back; what reading skips changes nothing. -/
theorem readerReadsEveryWrittenLine : Obligations.ReaderReadsEveryWrittenLine := by
  refine ⟨fun a => ?_, fun text note => ⟨readLine_map_lowerChar text, readLine_comment text note, fun hblank => ?_⟩⟩
  · obtain ⟨hne, hplain⟩ := plain_operands a
    rw [AsmLine.write, readLine_written _ _ (plain_mnemonic a) hne hplain, readOperands_written]
    rfl
  · rw [readLine_comment, readLine_blank hblank]

end Sys2Proof.Machine
end

section
/-! SUPPORT. Sequences and words of a width (spec/00_scope.md R12, spec/40_pack_unpack.md R80 to R82): which bits they depend on, and
that the word of the sequence of a word is its low bits. -/

namespace Sys2Proof.Machine

/-- The sequence of a word depends on the word's bits below w only (R84). -/
theorem SequenceOf.congr {v v' : Word} {w : Nat} {ord : ShiftOrder} {q : Lanes} (hq : SequenceOf v w ord q)
    (h : ∀ k, k < w → v.getLsbD k = v'.getLsbD k) : SequenceOf v' w ord q := by
  intro k
  rw [hq k]
  by_cases hk : k < w
  · rw [h _ (idx_lt k w ord hk)]
  · simp [hk]

/-- The word of a sequence depends on the lanes below w only (R93). -/
theorem WordOf.congr {s s' : Lanes} {w : Nat} {ord : ShiftOrder} {v : Word} (hv : WordOf s w ord v)
    (h : ∀ k, k < w → s.getLsbD k = s'.getLsbD k) : WordOf s' w ord v := by
  intro i
  rw [hv i]
  by_cases hi : i < w
  · rw [h _ (idx_lt i w ord hi)]
  · simp [hi]

/-- Law 1 of R82, as a relation: the word of the sequence of `v` is the low w bits of `v`. -/
theorem SequenceOf.wordOf_lowBits {v : Word} {w : Nat} {ord : ShiftOrder} {q : Lanes} (hq : SequenceOf v w ord q) :
    WordOf q w ord (lowBits v w) := by
  intro i
  rw [lowBits_bit]
  by_cases hi : i < w
  · simp [hi, hq (idx i w ord), idx_lt i w ord hi, idx_idx i w ord hi]
  · simp [hi]

theorem toNat_lowBits (v : Word) (w : Nat) : (lowBits v w).toNat = v.toNat % 2 ^ w := by
  rw [lowBits, BitVec.toNat_ofNat, Nat.mod_eq_of_lt]
  exact (Nat.mod_le _ _).trans_lt v.isLt

/-- LSB first the sequence of a word is its low w bits (R86). -/
theorem SequenceOf.eq_lowBits {v : Word} {w : Nat} {q : Lanes} (hq : SequenceOf v w .lsbFirst q) : q = lowBits v w :=
  BitVec.eq_of_getLsbD_eq fun i _ => by rw [hq i, lowBits_bit, idx]

/-- LSB first the word of a sequence is its low w bits (R94). -/
theorem WordOf.eq_lowBits {s : Lanes} {w : Nat} {v : Word} (hv : WordOf s w .lsbFirst v) : v = lowBits s w :=
  BitVec.eq_of_getLsbD_eq fun i _ => by rw [hv i, lowBits_bit, idx]

/-- A word of a w-element sequence is below 2^w (R94). -/
theorem WordOf.toNat_lt {s : Lanes} {w : Nat} {ord : ShiftOrder} {v : Word} (hv : WordOf s w ord v) : v.toNat < 2 ^ w :=
  Nat.lt_pow_two_of_testBit _ fun i hi => by
    rw [BitVec.testBit_toNat, hv i, decide_eq_false (not_lt.mpr hi), Bool.false_and]

theorem SequenceOf.eq_zero {v : Word} {w : Nat} {ord : ShiftOrder} {q : Lanes} (hq : SequenceOf v w ord q)
    (h : w = 0 ∨ v = 0) : q = 0 :=
  BitVec.eq_of_getLsbD_eq fun i _ => by obtain rfl | rfl := h <;> simp [hq i]

theorem WordOf.eq_zero {s : Lanes} {w : Nat} {ord : ShiftOrder} {v : Word} (hv : WordOf s w ord v)
    (h : w = 0 ∨ s = 0) : v = 0 :=
  BitVec.eq_of_getLsbD_eq fun i _ => by obtain rfl | rfl := h <;> simp [hv i]

/-- Settles O21: `packseq` gives the sequence of the word, so `unpackval` of it gives the word's low bits; MSB first is LSB first
read from the other end of the w lanes. -/
theorem bitOrderLaws : Obligations.BitOrderLaws := by
  intro v w hw
  refine ⟨fun ord => ?_, fun k hk => ?_⟩
  · have hunpack := unpackval_wordOf (packseq v w ord) w ord hw
    rw [hunpack.unique (packseq_sequenceOf v w ord hw).wordOf_lowBits, toNat_lowBits]
  · have hk' : w - 1 - k < w := by omega
    rw [packseq_sequenceOf v w .msbFirst hw k, packseq_sequenceOf v w .lsbFirst hw (w - 1 - k)]
    simp [hk, hk', idx]

end Sys2Proof.Machine
end

section
/-! SUPPORT. A command read from the fields of its word (spec/30_encoding.md R61 to R67): the width check and the bit order in terms
of the word's bits. -/

namespace Sys2Proof.Machine

/-- The width check on a width field and a CAP bit (R63, R64, R81). -/
theorem validWidth_field_iff (n : Nat) (b : Bool) :
    ValidWidth (n : Int) (if b then .word else .byte) ↔ n ≤ if b then 32 else 8 := by
  cases b <;> simp [ValidWidth, capBits]

theorem not_validWidth_field_iff (n : Nat) (b : Bool) :
    ¬ ValidWidth (n : Int) (if b then .word else .byte) ↔ (if b then 32 else 8) < n := by
  rw [validWidth_field_iff, not_le]

/-- The bit order of an ORD bit (R12, R62). -/
theorem idx_field (i w : Nat) (b : Bool) :
    idx i w (if b then .msbFirst else .lsbFirst) = if b then w - 1 - i else i := by
  cases b <;> rfl

/-- The width field as a length (R64, R85). -/
theorem ofNat_field (x : Len) : BitVec.ofNat 6 (x.toNat : Int).toNat = x := by
  rw [Int.toNat_natCast, BitVec.ofNat_toNat, BitVec.setWidth_eq]

theorem not_validWidth_iff (w : Int) (cap : Capacity) : ¬ ValidWidth w cap ↔ w < 0 ∨ (capBits cap : Int) < w := by
  omega

theorem toNat_ofNat_of_validWidth {w : Int} {cap : Capacity} (h : ValidWidth w cap) :
    (BitVec.ofNat 6 w.toNat).toNat = w.toNat := by
  have := h.toNat_le
  rw [BitVec.toNat_ofNat]
  omega

end Sys2Proof.Machine
end

section
/-! SUPPORT. PACK (spec/40_pack_unpack.md R83 to R86). -/

namespace Sys2Proof.Machine

/-- PACK completes in every state by the response of its rule alone (R83). -/
theorem exec_pack (w : Int) (cap : Capacity) (ord : ShiftOrder) (s : State) :
    ∃ r, exec (.pack w cap ord) s = .next (s.completed r) ∧ PackAnswers w cap ord s.ports.opa r :=
  execPack_cases w cap ord s

/-- The rule of PACK, read off a response that is OK. -/
theorem PackAnswers.of_ok {w : Int} {cap : Capacity} {ord : ShiftOrder} {opa : Word} {f : OkFields}
    (h : PackAnswers w cap ord opa (.ok f)) :
    ValidWidth w cap ∧ ∃ q, SequenceOf opa w.toNat ord q ∧ f = { seq := q, slen := BitVec.ofNat 6 w.toNat } := by
  obtain ⟨hvalid, hinvalid⟩ := h
  by_cases hv : ValidWidth w cap
  · obtain ⟨q, hq, hf⟩ := hvalid hv
    exact ⟨hv, q, hq, Response.ok.inj hf⟩
  · cases hinvalid hv

/-- PACK's rule reads the bits of the word below w only (R84). -/
theorem PackAnswers.congr {w : Int} {cap : Capacity} {ord : ShiftOrder} {opa opa' : Word} {r : Response}
    (ha : PackAnswers w cap ord opa r) (h : ∀ k, k < w.toNat → opa.getLsbD k = opa'.getLsbD k) :
    PackAnswers w cap ord opa' r := by
  obtain ⟨hvalid, hinvalid⟩ := ha
  refine ⟨fun hv => ?_, hinvalid⟩
  obtain ⟨q, hq, hr⟩ := hvalid hv
  exact ⟨q, hq.congr h, hr⟩

/-- PACK's rule does not read the capacity where the width fits both (R86). -/
theorem PackAnswers.of_valid {w : Int} {cap cap' : Capacity} {ord : ShiftOrder} {opa : Word} {r : Response}
    (ha : PackAnswers w cap ord opa r) (hv : ValidWidth w cap) (hv' : ValidWidth w cap') :
    PackAnswers w cap' ord opa r :=
  ⟨fun _ => ha.1 hv, fun hn => absurd hv' hn⟩

/-- An OK response of PACK, from the state it was given in. -/
theorem exec_pack_ok {s t : State} {w : Int} {cap : Capacity} {ord : ShiftOrder} {f : OkFields}
    (h : exec (.pack w cap ord) s = .next t) (hr : t.response = some (.ok f)) :
    t = s.completed (.ok f) ∧ PackAnswers w cap ord s.ports.opa (.ok f) := by
  obtain ⟨r, he, ha⟩ := exec_pack w cap ord s
  obtain rfl := Host.Outcome.next.inj (h.symm.trans he)
  obtain rfl : r = .ok f := Option.some.inj hr
  exact ⟨rfl, ha⟩

/-- Settles O11: PACK's rule for a valid width. -/
theorem packCompletes : Obligations.PackCompletes := by
  intro s w cap ord hv
  obtain ⟨r, he, hvalid, -⟩ := exec_pack w cap ord s
  obtain ⟨q, hq, rfl⟩ := hvalid hv
  exact ⟨q, hq, he⟩

/-- Settles O12: the word's fields are the operands of the PACK it decodes to. -/
theorem packWordAnswers : Obligations.PackWordAnswers := by
  intro s c rest hp hrow
  obtain ⟨hdecode, -⟩ := decodeReadsFields c.cmd
  obtain ⟨r, he, hvalid, hinvalid⟩ := exec_pack _ _ _ (s.accept c rest)
  refine ⟨_, (step_of_decode_ok hp (hdecode hrow)).trans he, fun hw => ?_, fun hw => ?_⟩
  · obtain ⟨q, hq, rfl⟩ := hvalid ((validWidth_field_iff _ _).mpr hw)
    exact ⟨q, by rw [State.completed_response, ofNat_field], fun k => by rw [hq k, idx_field]; rfl⟩
  · rw [hinvalid ((not_validWidth_field_iff _ _).mpr hw)]
    rfl

/-- Settles O13: PACK's rule gives both words one response; the example is `packseq` of 0x1FF, evaluated. -/
theorem packIgnoresBitsAboveWidth : Obligations.PackIgnoresBitsAboveWidth := by
  refine ⟨fun s v w cap ord hbits => ?_, fun s hopa => ?_⟩
  · obtain ⟨r, he, ha⟩ := exec_pack w cap ord s
    obtain ⟨r', he', ha'⟩ := exec_pack w cap ord { s with ports := { s.ports with opa := v } }
    obtain rfl : r = r' := ha.unique (ha'.congr hbits)
    refine ⟨_, _, he, he', rfl, fun hv => ?_⟩
    obtain ⟨q, -, rfl⟩ := ha.1 hv
    exact ⟨_, rfl⟩
  · obtain ⟨q, hq, he⟩ := packCompletes s 8 .byte .lsbFirst (by decide)
    have hpack : packseq 0x1FF#32 8 .lsbFirst = 0xFF#32 := by decide
    rw [hopa] at hq
    rw [he, SequenceOf.unique hq (packseq_sequenceOf 0x1FF#32 8 .lsbFirst (by decide)), hpack]
    rfl

/-- Settles O14: an OK response of PACK is the sequence of OPA, whose closed forms these are. -/
theorem packClosedForms : Obligations.PackClosedForms := by
  intro s t w cap ord f h hr
  obtain ⟨rfl, ha⟩ := exec_pack_ok h hr
  obtain ⟨hv, q, hq, rfl⟩ := ha.of_ok
  refine ⟨toNat_ofNat_of_validWidth hv, ?_, ?_, ?_, fun hopa => hq.eq_zero (.inr hopa), ?_⟩
  · rintro rfl
    rw [hq.eq_lowBits, toNat_lowBits]
  · rintro rfl
    exact hq
  · rintro rfl
    exact ⟨hq.eq_zero (.inl rfl), rfl⟩
  · rintro rfl
    obtain ⟨r, he, ha'⟩ := exec_pack w .word ord s
    have hv' : ValidWidth w .word := ⟨hv.1, hv.2.trans (by decide)⟩
    rw [he, ha'.unique (ha.of_valid hv hv')]

end Sys2Proof.Machine
end

section
/-! SUPPORT. UNPACK (spec/40_pack_unpack.md R90 to R94), and the round trip through PACK (R82). -/

namespace Sys2Proof.Machine

/-- UNPACK completes in every state by the response of its rule alone (R90). -/
theorem exec_unpack (present : Bool) (w : Int) (cap : Capacity) (ord : ShiftOrder) (s : State) :
    ∃ r, exec (.unpack present w cap ord) s = .next (s.completed r) ∧
      UnpackAnswers present w cap ord s.ports.ops s.ports.opl r :=
  execUnpack_cases present w cap ord s

/-- The rule of UNPACK gives one of its responses: NullInput, InvalidWidth, or the word (R90, R125). -/
theorem UnpackAnswers.cases {present : Bool} {w : Int} {cap : Capacity} {ord : ShiftOrder} {ops : Lanes} {opl : Len}
    {r : Response} (h : UnpackAnswers present w cap ord ops opl r) :
    (present = false ∧ r = .err .nullInput) ∨
    (present = true ∧ (¬ ValidWidth w cap ∨ (opl.toNat : Int) < w) ∧ r = .err .invalidWidth) ∨
    (present = true ∧ ValidWidth w cap ∧ w ≤ (opl.toNat : Int) ∧ ∃ v, WordOf ops w.toNat ord v ∧ r = .ok { res := v }) := by
  obtain ⟨hnull, hvalid, hwidth, hshort⟩ := h
  cases present with
  | false => exact .inl ⟨rfl, hnull rfl⟩
  | true =>
    by_cases hv : ValidWidth w cap
    · by_cases hl : w ≤ (opl.toNat : Int)
      · exact .inr (.inr ⟨rfl, hv, hl, hvalid rfl hv hl⟩)
      · exact .inr (.inl ⟨rfl, .inr (not_le.mp hl), hshort rfl (not_le.mp hl)⟩)
    · exact .inr (.inl ⟨rfl, .inl hv, hwidth rfl hv⟩)

/-- The rule of UNPACK, read off a response that is OK. -/
theorem UnpackAnswers.of_ok {present : Bool} {w : Int} {cap : Capacity} {ord : ShiftOrder} {ops : Lanes} {opl : Len}
    {f : OkFields} (h : UnpackAnswers present w cap ord ops opl (.ok f)) :
    ∃ v, WordOf ops w.toNat ord v ∧ f = { res := v } := by
  obtain ⟨-, hr⟩ | ⟨-, -, hr⟩ | ⟨-, -, -, v, hv, hr⟩ := h.cases
  · cases hr
  · cases hr
  · exact ⟨v, hv, Response.ok.inj hr⟩

/-- UNPACK's rule reads the lanes below w, and of the length only whether it reaches w (R92, R93). -/
theorem UnpackAnswers.congr {present : Bool} {w : Int} {cap : Capacity} {ord : ShiftOrder} {ops ops' : Lanes}
    {opl opl' : Len} {r : Response} (ha : UnpackAnswers present w cap ord ops opl r)
    (h : ∀ k, k < w.toNat → ops.getLsbD k = ops'.getLsbD k) (hl : w ≤ (opl.toNat : Int)) (hl' : w ≤ (opl'.toNat : Int)) :
    UnpackAnswers present w cap ord ops' opl' r := by
  obtain ⟨hnull, hvalid, hwidth, -⟩ := ha
  refine ⟨hnull, fun hp hv _ => ?_, hwidth, fun _ hshort => absurd hl' (not_le.mpr hshort)⟩
  obtain ⟨v, hw, hr⟩ := hvalid hp hv hl
  exact ⟨v, hw.congr h, hr⟩

/-- Settles O16: UNPACK's rule for a present sequence that is long enough. -/
theorem unpackCompletes : Obligations.UnpackCompletes := by
  intro s w cap ord hv hl
  obtain ⟨r, he, -, hvalid, -⟩ := exec_unpack true w cap ord s
  obtain ⟨v, hw, rfl⟩ := hvalid rfl hv hl
  exact ⟨v, hw, he⟩

/-- Settles O17: UNPACK's rule for its three errors. -/
theorem unpackErrorsInOrder : Obligations.UnpackErrorsInOrder := by
  intro s w cap ord
  obtain ⟨r, he, hnull, -⟩ := exec_unpack false w cap ord s
  obtain ⟨r', he', -, -, hwidth, hshort⟩ := exec_unpack true w cap ord s
  refine ⟨hnull rfl ▸ he, fun hw => ?_, fun hl => hshort rfl hl ▸ he'⟩
  exact hwidth rfl ((not_validWidth_iff w cap).mpr hw) ▸ he'

/-- Settles O15: the width check comes first in PACK and XFER, and in UNPACK of a present sequence. -/
theorem invalidWidthIsRaised : Obligations.InvalidWidthIsRaised := by
  intro s w cap ord hw
  have hv := (not_validWidth_iff w cap).mpr hw
  obtain ⟨r, he, -, hinvalid⟩ := exec_pack w cap ord s
  obtain ⟨-, hunpack, -⟩ := unpackErrorsInOrder s w cap ord
  exact ⟨hinvalid hv ▸ he, hunpack hw, execXfer_invalid w cap ord s hv⟩

/-- Settles O18: the word's fields are the operands of the UNPACK it decodes to. -/
theorem unpackWordAnswers : Obligations.UnpackWordAnswers := by
  intro s c rest hp hrow
  obtain ⟨-, hdecode, -⟩ := decodeReadsFields c.cmd
  obtain ⟨r, he, hnull, hvalid, hwidth, hshort⟩ := exec_unpack _ _ _ _ (s.accept c rest)
  refine ⟨_, (step_of_decode_ok hp (hdecode hrow)).trans he, fun hsp => ?_, fun hsp hbad => ?_, fun hsp hw hl => ?_⟩
  · rw [hnull hsp]
    rfl
  · obtain hw | hl := hbad
    · rw [hwidth hsp ((not_validWidth_field_iff _ _).mpr hw)]
      rfl
    · rw [hshort hsp (Int.ofNat_lt.mpr hl)]
      rfl
  · obtain ⟨v, hv, rfl⟩ := hvalid hsp ((validWidth_field_iff _ _).mpr hw) (Int.ofNat_le.mpr hl)
    exact ⟨v, rfl, fun i => by rw [hv i, idx_field]; rfl⟩

/-- Settles O19: UNPACK's rule gives both sequences one response. -/
theorem unpackReadsOnlyFirstElements : Obligations.UnpackReadsOnlyFirstElements := by
  intro s ops opl w cap ord hlanes hl hl'
  obtain ⟨r, he, ha⟩ := exec_unpack true w cap ord s
  obtain ⟨r', he', ha'⟩ := exec_unpack true w cap ord { s with ports := { s.ports with ops := ops, opl := opl } }
  obtain rfl : r = r' := ha.unique (ha'.congr hlanes hl' hl)
  exact ⟨_, _, he, he', rfl⟩

/-- Settles O20: an OK response of UNPACK is the word of OPS, whose corner cases these are. -/
theorem unpackResultRange : Obligations.UnpackResultRange := by
  intro s t w cap ord f h hr
  obtain ⟨r, he, ha⟩ := exec_unpack true w cap ord s
  obtain rfl := Host.Outcome.next.inj (h.symm.trans he)
  obtain rfl : r = .ok f := Option.some.inj hr
  obtain ⟨v, hv, rfl⟩ := ha.of_ok
  refine ⟨hv.toNat_lt, fun hops => hv.eq_zero (.inr hops), ?_, ?_⟩
  · rintro rfl
    exact hv.eq_zero (.inl rfl)
  · rintro rfl
    rw [hv.eq_lowBits, toNat_lowBits]

/-- Settles O22: PACK answers the sequence of OPA with its length, and the word of that sequence is OPA's low bits. -/
theorem packThenUnpackGivesLowBits : Obligations.PackThenUnpackGivesLowBits := by
  intro s t u w cap ord f h hr hops hopl
  obtain ⟨-, ha⟩ := exec_pack_ok h hr
  obtain ⟨hv, q, hq, rfl⟩ := ha.of_ok
  have hlen : w ≤ (u.ports.opl.toNat : Int) := by
    rw [hopl, toNat_ofNat_of_validWidth hv]
    omega
  obtain ⟨v, hw, he⟩ := unpackCompletes u w cap ord hv hlen
  obtain rfl : v = lowBits s.ports.opa w.toNat := by
    rw [hops] at hw
    exact WordOf.unique hw hq.wordOf_lowBits
  exact he

end Sys2Proof.Machine
end

section
/-! SUPPORT. TURNAROUND's responses (spec/41_turnaround.md R100 to R104). -/

namespace Sys2Proof.Machine

/-- A TURNAROUND that completed under a supplied bound, by its count: rejected outside the bound, accepted inside (R101). -/
theorem exec_turnaround_response {s t : State} {lo hi : BitVec 32} (hlo : s.config.trnMin = some lo)
    (hhi : s.config.trnMax = some hi) {dir : Direction} (h : exec (.turnaround dir) s = .next t) :
    (lo.toInt ≤ s.ports.opa.toInt ∧ s.ports.opa.toInt ≤ hi.toInt → ∃ f, t.response = some (.ok f)) ∧
    (s.ports.opa.toInt < lo.toInt ∨ hi.toInt < s.ports.opa.toInt →
      t.response = some (.err .invalidTurnaroundCycles)) := by
  obtain ⟨u, hu, houtside, hinside⟩ := turnaroundRejectsExactlyOutsideBound s dir lo hi hlo hhi
  obtain rfl := Host.Outcome.next.inj (h.symm.trans hu)
  exact ⟨fun hin => hinside (by omega), fun hout => houtside hout ▸ rfl⟩

/-- Settles O23: TURNAROUND's rule inside the bound. -/
theorem turnaroundCompletes : Obligations.TurnaroundCompletes := by
  intro s dir lo hi hlo hhi hmin hmax
  obtain ⟨r, he, ha⟩ := exec_turnaround_of_supplied hlo hhi dir
  obtain ⟨hinside, -⟩ := (turnaroundAnswers_iff_of_supplied hlo hhi dir s.ports.opa r).mp ha
  rw [he, hinside ⟨hmin, hmax⟩]
  cases dir <;> rfl

/-- The direction a DIR bit spells shows on DIRO as that bit (R67, R103). -/
theorem diro_of_dirField (cmd : CmdWord) :
    (if (if cmd.getLsbD 2 then Direction.read else .write) = .read then 1#1 else 0#1) = cmd.extractLsb' 2 1 := by
  have hbit : cmd.extractLsb' 2 1 = BitVec.ofBool (cmd.getLsbD 2) := by
    refine BitVec.eq_of_getLsbD_eq fun i hi => ?_
    obtain rfl : i = 0 := by omega
    simp
  rw [hbit]
  cases cmd.getLsbD 2 <;> rfl

/-- Settles O24: the word's DIR bit is the direction of the TURNAROUND it decodes to. -/
theorem turnaroundWordAnswers : Obligations.TurnaroundWordAnswers := by
  intro s c rest lo hi hp hrow hlo hhi
  obtain ⟨-, -, hdecode, -⟩ := decodeReadsFields c.cmd
  obtain ⟨r, he, ha⟩ := exec_turnaround_of_supplied (s := s.accept c rest) hlo hhi
    (if c.cmd.getLsbD 2 then .read else .write)
  obtain ⟨hinside, houtside⟩ := (turnaroundAnswers_iff_of_supplied hlo hhi _ _ r).mp ha
  refine ⟨_, (step_of_decode_ok hp (hdecode hrow)).trans he, fun hout => congrArg some (houtside hout), ?_⟩
  intro hmin hmax
  rw [hinside ⟨hmin, hmax⟩, diro_of_dirField]
  rfl

/-- Settles O27: where the count lies decides, whatever the direction; an empty range holds no count and a one-value range
holds one. -/
theorem turnaroundRangeCorners : Obligations.TurnaroundRangeCorners := by
  intro s t dir lo hi hlo hhi h
  obtain ⟨hinside, houtside⟩ := exec_turnaround_response hlo hhi h
  refine ⟨fun hempty => houtside (by omega), ?_, fun other u hu => ?_⟩
  · rintro rfl
    constructor
    · rintro ⟨f, hf⟩
      by_contra hne
      have hint : s.ports.opa.toInt ≠ lo.toInt := fun heq => hne (BitVec.eq_of_toInt_eq heq)
      rw [houtside (by omega)] at hf
      cases hf
    · intro heq
      exact hinside (by rw [heq]; exact ⟨le_refl _, le_refl _⟩)
  · obtain ⟨hinside', houtside'⟩ := exec_turnaround_response hlo hhi hu
    by_cases hin : lo.toInt ≤ s.ports.opa.toInt ∧ s.ports.opa.toInt ≤ hi.toInt
    · obtain ⟨f, hf⟩ := hinside hin
      obtain ⟨f', hf'⟩ := hinside' hin
      simp [hf, hf']
    · rw [houtside (by omega), houtside' (by omega)]

end Sys2Proof.Machine
end

section
/-! SUPPORT. XFER's call and its answers (spec/42_transfer.md R110 to R115). -/

namespace Sys2Proof.Machine

/-- Settles O29: a valid XFER's one call, whose answer is the next scripted one when one is left. -/
theorem xferCallsTransportOnce : Obligations.XferCallsTransportOnce := by
  intro s w cap ord hv
  obtain ⟨out, r, ho, -, he⟩ := execXfer_valid w cap ord s hv
  have hle := hv.toNat_le
  exact ⟨out, _, r, ho, fun a rest hs => transfer_scripted _ _ _ _ _ hs, hv.1, by omega, he⟩

/-- Settles O30: XFER's rule for a sequence answered by script. -/
theorem xferUnpacksAnswer : Obligations.XferUnpacksAnswer := by
  intro s w cap ord inc rest hv hs
  obtain ⟨out, r, -, ⟨v, hw, rfl⟩, he⟩ := exec_xfer_of_scripted hv hs ord
  refine ⟨out, v, hw, he.trans ?_⟩
  simp [State.completedAfterCall, hs]

/-- Settles O31: the word's fields are the operands of the XFER it decodes to. -/
theorem xferWordAnswers : Obligations.XferWordAnswers := by
  intro s c rest a as hp hrow hs
  obtain ⟨-, -, -, hdecode⟩ := decodeReadsFields c.cmd
  have hstep := step_of_decode_ok hp (hdecode hrow)
  by_cases hw : (c.cmd.extractLsb' 4 6).toNat ≤ if c.cmd.getLsbD 3 then 32 else 8
  · have hv := (validWidth_field_iff _ _).mpr hw
    obtain ⟨out, r, ho, ha, he⟩ := exec_xfer_of_scripted (s := s.accept c rest) hv hs
      (if c.cmd.getLsbD 2 then .msbFirst else .lsbFirst)
    rw [ofNat_field] at he
    refine ⟨_, hstep.trans he, fun hbad => absurd hw (not_le.mpr hbad), fun _ => ⟨?_, ⟨out, r, ?_, fun k => ?_⟩, ?_, ?_⟩⟩
    · simp [hs]
    · simp
    · rw [ho k, idx_field]
      rfl
    · rintro e rfl
      exact congrArg some ha
    · rintro inc rfl
      obtain ⟨v, hv, rfl⟩ := ha
      exact ⟨v, rfl, fun i => by rw [hv i, idx_field]; rfl⟩
  · have hv := (not_validWidth_field_iff _ _).mpr (not_le.mp hw)
    exact ⟨_, hstep.trans (execXfer_invalid _ _ _ _ hv), fun _ => ⟨rfl, hs⟩, fun hgood => absurd hgood hw⟩

/-- Settles O33: the echoed sequence is the sequence of OPA, and its word is OPA's low bits. -/
theorem xferEchoGivesLowBits : Obligations.XferEchoGivesLowBits := by
  intro s t w cap ord n out r h hev
  by_cases hv : ValidWidth w cap
  · obtain ⟨out', r', ho, ha, he⟩ := execXfer_valid w cap ord s hv
    obtain rfl := Host.Outcome.next.inj (h.symm.trans he)
    rw [eventsAdded_completedAfterCall] at hev
    simp only [List.cons.injEq, Event.xfer.injEq, Event.xferAns.injEq, Event.resp.injEq, and_true] at hev
    obtain ⟨⟨-, rfl⟩, hans, rfl⟩ := hev
    rw [hans] at ha
    obtain ⟨v, hw, rfl⟩ := ha
    rw [hw.unique ho.wordOf_lowBits]
    exact ⟨rfl, rfl⟩
  · obtain rfl := Host.Outcome.next.inj (h.symm.trans (execXfer_invalid w cap ord s hv))
    simp at hev

end Sys2Proof.Machine
end

section
/-! SUPPORT. Where each error is raised (spec/60_exceptions.md R121, R122, R124): each command's rule gives it in its own cases and
in no others. -/

namespace Sys2Proof.Machine

/-! ### Where a command's rule gives InvalidWidth -/

theorem PackAnswers.invalidWidth_iff {w : Int} {cap : Capacity} {ord : ShiftOrder} {opa : Word} {r : Response}
    (h : PackAnswers w cap ord opa r) : r = .err .invalidWidth ↔ ¬ ValidWidth w cap := by
  refine ⟨?_, h.2⟩
  rintro rfl hv
  obtain ⟨_, -, hr⟩ := h.1 hv
  cases hr

theorem UnpackAnswers.invalidWidth_iff {present : Bool} {w : Int} {cap : Capacity} {ord : ShiftOrder} {ops : Lanes}
    {opl : Len} {r : Response} (h : UnpackAnswers present w cap ord ops opl r) :
    r = .err .invalidWidth ↔ present = true ∧ (¬ ValidWidth w cap ∨ (opl.toNat : Int) < w) := by
  obtain ⟨hp, rfl⟩ | ⟨hp, hbad, rfl⟩ | ⟨hp, hv, hl, v, -, rfl⟩ := h.cases
  · simp [hp]
  · simp only [hp, hbad, and_self]
  · refine iff_of_false nofun ?_
    rintro ⟨-, hbad | hbad⟩
    · exact hbad hv
    · exact absurd hl (not_le.mpr hbad)

theorem UnpackAnswers.nullInput_iff {present : Bool} {w : Int} {cap : Capacity} {ord : ShiftOrder} {ops : Lanes}
    {opl : Len} {r : Response} (h : UnpackAnswers present w cap ord ops opl r) :
    r = .err .nullInput ↔ present = false := by
  obtain ⟨hp, rfl⟩ | ⟨hp, -, rfl⟩ | ⟨hp, -, -, v, -, rfl⟩ := h.cases
  · simp [hp]
  · simp [hp]
  · simp [hp]

/-- XFER's rule gives DriverFailure exactly for a failed call, with its detail (R113). -/
theorem XferAnswers.driverFailure_iff {w : Nat} {ord : ShiftOrder} {ans : TransportAnswer} {r : Response}
    (h : XferAnswers w ord ans r) (e : DrvErr) : r = .err (.driverFailure e) ↔ ans = .fail e := by
  cases ans with
  | fail d =>
    obtain rfl : r = .err (.driverFailure d) := h
    simp
  | seq inc =>
    obtain ⟨v, -, rfl⟩ := h
    simp

/-! ### The four commands together -/

/-- Settles O35: each command's rule gives InvalidWidth in the cases its clause lists, TURNAROUND's in none. -/
theorem invalidWidthExactly : Obligations.InvalidWidthExactly := by
  intro i s t h
  obtain ⟨w, cap, ord, r, rfl, ha, rfl⟩ | ⟨p, w, cap, ord, r, rfl, ha, rfl⟩ | ⟨dir, r, rfl, ha, rfl⟩ |
    ⟨w, cap, ord, rfl, hv, rfl⟩ | ⟨w, cap, ord, out, r, rfl, hv, ho, ha, rfl⟩ := exec_next_cases h
  · simpa using ha.invalidWidth_iff
  · simpa using ha.invalidWidth_iff
  · refine iff_of_false (fun hr => ?_) not_false
    obtain rfl : r = .err .invalidWidth := Option.some.inj hr
    obtain ⟨hk, -⟩ := ha.err_outside
    cases hk
  · exact iff_of_true rfl hv
  · exact iff_of_false (fun hr => ha.ne_invalidWidth (Option.some.inj hr)) (not_not_intro hv)

/-- A command that completes with NullInput is an UNPACK of an absent sequence. -/
theorem unpack_of_exec_nullInput {i : Instr} {s t : State} (h : exec i s = .next t)
    (hr : t.response = some (.err .nullInput)) : ∃ w cap ord, i = .unpack false w cap ord := by
  obtain ⟨w, cap, ord, r, rfl, ha, rfl⟩ | ⟨p, w, cap, ord, r, rfl, ha, rfl⟩ | ⟨dir, r, rfl, ha, rfl⟩ |
    ⟨w, cap, ord, rfl, hv, rfl⟩ | ⟨w, cap, ord, out, r, rfl, hv, ho, ha, rfl⟩ := exec_next_cases h
  · obtain rfl : r = .err .nullInput := Option.some.inj hr
    cases ha.err_invalidWidth
  · obtain rfl := ha.nullInput_iff.mp (Option.some.inj hr)
    exact ⟨w, cap, ord, rfl⟩
  · obtain rfl : r = .err .nullInput := Option.some.inj hr
    obtain ⟨hk, -⟩ := ha.err_outside
    cases hk
  · cases hr
  · obtain rfl : r = .err .nullInput := Option.some.inj hr
    obtain ⟨_, -, hk⟩ := ha.err_fail
    cases hk

/-- A command that completes with DriverFailure is an XFER that made its call. -/
theorem xfer_of_exec_driverFailure {i : Instr} {s t : State} {e : DrvErr} (h : exec i s = .next t)
    (hr : t.response = some (.err (.driverFailure e))) :
    ∃ w cap ord, i = .xfer w cap ord ∧ ValidWidth w cap := by
  obtain ⟨hk | hk, -⟩ | ⟨_, _, _, -, -, -, -, hk, -⟩ | ⟨n, out, d, -, ht⟩ := exec_error_cases h hr
  · cases hk
  · cases hk
  · cases hk
  · obtain ⟨r, hlocal⟩ | ⟨w, cap, ord, _, _, _, _, hi, hv, -⟩ := exec_next_effect h
    · have hev := congrArg (eventsAdded s) (hlocal.symm.trans ht)
      simp at hev
    · exact ⟨w, cap, ord, hi, hv⟩

/-- A valid XFER completes with DriverFailure exactly when its call is recorded with that failure (R113, R124). -/
theorem exec_xfer_driverFailure_iff {s t : State} {w : Int} {cap : Capacity} {ord : ShiftOrder} (hv : ValidWidth w cap)
    (h : exec (.xfer w cap ord) s = .next t) (e : DrvErr) :
    t.response = some (.err (.driverFailure e)) ↔ .xferAns (.fail e) ∈ eventsAdded s t := by
  obtain ⟨out, r, -, ha, he⟩ := execXfer_valid w cap ord s hv
  obtain rfl := Host.Outcome.next.inj (h.symm.trans he)
  simp [ha.driverFailure_iff, eq_comm]

/-- Settles O37: NullInput is UNPACK's for an absent sequence, and DriverFailure a valid XFER's for a failed call. -/
theorem nullInputAndDriverFailureExactly : Obligations.NullInputAndDriverFailureExactly := by
  intro i s t h
  refine ⟨⟨unpack_of_exec_nullInput h, ?_⟩, fun e => ⟨fun hr => ?_, ?_⟩⟩
  · rintro ⟨w, cap, ord, rfl⟩
    obtain ⟨hnull, -⟩ := unpackErrorsInOrder s w cap ord
    obtain rfl := Host.Outcome.next.inj (h.symm.trans hnull)
    rfl
  · obtain ⟨w, cap, ord, rfl, hv⟩ := xfer_of_exec_driverFailure h hr
    exact ⟨w, cap, ord, rfl, hv, (exec_xfer_driverFailure_iff hv h e).mp hr⟩
  · rintro ⟨w, cap, ord, rfl, hv, hmem⟩
    exact (exec_xfer_driverFailure_iff hv h e).mpr hmem

/-! ### The response ports -/

/-- An error on the response ports: its code, which is not 0, and no field but the detail of a DriverFailure (R25, D13). -/
theorem onPorts_err (k : ErrorKind) :
    (Response.err k).onPorts.st ≠ 0 ∧ (Response.err k).onPorts.res = 0 ∧ (Response.err k).onPorts.seq = 0 ∧
      (Response.err k).onPorts.slen = 0 ∧ (Response.err k).onPorts.diro = 0 ∧
      ∀ e, (Response.err k).onPorts.drv = some e ↔ k = .driverFailure e := by
  cases k <;> simp [Response.onPorts, statusCode, drvField]

/-- An OK response of TURNAROUND is the count and the direction (R102, R103). -/
theorem TurnaroundAnswers.of_ok {c : Configuration} {dir : Direction} {opa : Word} {f : OkFields}
    (h : TurnaroundAnswers c dir opa (.ok f)) : f = { res := opa, diro := if dir = .read then 1#1 else 0#1 } := by
  obtain ⟨lo, hi, -, -, hinside, houtside⟩ := h
  by_cases hin : lo.toInt ≤ opa.toInt ∧ opa.toInt ≤ hi.toInt
  · exact Response.ok.inj (hinside hin)
  · cases houtside (by omega)

theorem XferAnswers.of_ok {w : Nat} {ord : ShiftOrder} {ans : TransportAnswer} {f : OkFields}
    (h : XferAnswers w ord ans (.ok f)) : ∃ v, f = { res := v } := by
  cases ans with
  | fail e => cases h
  | seq inc =>
    obtain ⟨v, -, hf⟩ := h
    exact ⟨v, Response.ok.inj hf⟩

/-- Settles O39: an error has no data field, and each command's OK response is 0 in the fields its rule does not name. -/
theorem unwrittenResponseFieldsAreZero : Obligations.UnwrittenResponseFieldsAreZero := by
  intro i s t h
  obtain ⟨w, cap, ord, r, rfl, ha, rfl⟩ | ⟨p, w, cap, ord, r, rfl, ha, rfl⟩ | ⟨dir, r, rfl, ha, rfl⟩ |
    ⟨w, cap, ord, rfl, hv, rfl⟩ | ⟨w, cap, ord, out, r, rfl, hv, ho, ha, rfl⟩ := exec_next_cases h
  · refine ⟨r, rfl, fun k hk => hk ▸ onPorts_err k, ?_⟩
    rintro f rfl
    obtain ⟨-, q, -, rfl⟩ := ha.of_ok
    exact ⟨rfl, rfl, rfl, rfl⟩
  · refine ⟨r, rfl, fun k hk => hk ▸ onPorts_err k, ?_⟩
    rintro f rfl
    obtain ⟨v, -, rfl⟩ := ha.of_ok
    exact ⟨rfl, rfl, rfl, rfl, rfl⟩
  · refine ⟨r, rfl, fun k hk => hk ▸ onPorts_err k, ?_⟩
    rintro f rfl
    obtain rfl := ha.of_ok
    exact ⟨rfl, rfl, rfl, rfl⟩
  · exact ⟨_, rfl, fun k hk => hk ▸ onPorts_err k, nofun⟩
  · refine ⟨r, rfl, fun k hk => hk ▸ onPorts_err k, ?_⟩
    rintro f rfl
    obtain ⟨v, rfl⟩ := ha.of_ok
    exact ⟨rfl, rfl, rfl, rfl, rfl⟩

end Sys2Proof.Machine
end
